-- ==== Sys2Proof/Word.lean ====
section
/-! DEFINITION. The machine's bit widths (spec 00_scope.md R6, R8, R9): bytes, 16-bit words, nibbles, 12-bit
addresses, and register numbers. Every datum is unsigned. -/

namespace Sys2Proof

/-- An 8-bit datum: a general register, a memory byte, an immediate NN (R6, R55). -/
abbrev Byte := BitVec 8

/-- A 16-bit datum: pc, I, a return address, an instruction word (R6, R53). -/
abbrev Word := BitVec 16

/-- A 4-bit field of an instruction word (R14, R54). -/
abbrev Nibble := BitVec 4

/-- The 12-bit address field NNN (R54). -/
abbrev Addr12 := BitVec 12

/-- A register number, 0 to 15: every value names a register (R15, R55). -/
abbrev Reg := Fin 16

/-- V[15], the flag register (10_state.md R17). -/
abbrev VF : Reg := 15

end Sys2Proof
end

