-- ==== Sys2Proof/Config.lean ====
section
/-! DEFINITION. What is fixed for one machine: the construction parameters of 00_scope.md R7 with their defaults,
and the free values, which the spec leaves open and which have no body. -/

namespace Sys2Proof

/-- The digit layout of FX33 (R7, 42_index_memory.md R87). -/
inductive BcdMode where
  /-- hundreds, tens, ones -/
  | decimal
  /-- hundreds, ones, ones -/
  | referenceDup
deriving DecidableEq, Repr

/-- The construction parameters (R7). They are arguments of the spec's step; State carries them (log 1). -/
structure Params where
  /-- `MEM_SIZE`: memory capacity in bytes -/
  memSize : Nat
  /-- `FONT_BASE`: address of glyph 0 -/
  fontBase : Nat
  /-- `FONT_GLYPHS`: glyph g at offsets 5g to 5g+4 -/
  fontGlyphs : Vector Byte 80
  /-- `START_PC`: initial pc and program load address -/
  startPc : Nat
  /-- `DISPLAY_W` -/
  displayW : Nat
  /-- `DISPLAY_H` -/
  displayH : Nat
  /-- `STACK_DEPTH`: most entries the call stack holds -/
  stackDepth : Nat
  /-- `TIME_HZ`: ticks per second of the clock input -/
  timeHz : Nat
  /-- `BCD_MODE` -/
  bcdMode : BcdMode
  /-- `FONT_WRITABLE`: whether instruction stores may change the font region -/
  fontWritable : Bool
deriving DecidableEq, Repr

namespace Config

/-- `TIME_HZ` is OPEN (R7, D37): no value is asserted. FREE VALUE, safe (log 2). -/
opaque openTimeHz : Nat

/-- The random byte of the step with this index, where the host has fixed none (10_state.md R30: any byte may
come at any step). FREE VALUE, safe (log 3). -/
opaque freeRand : Nat → Byte

/-- The clock ticks that pass before the step with this index, where the host has fixed no clock value (10_state.md
R30: `now` never decreases). FREE VALUE, safe (log 3). -/
opaque freeElapsed : Nat → Nat

/-- The stop request in the step with this index, where the host has fixed none (10_state.md R30: it may come at any
step, or never). FREE VALUE, safe (log 4). -/
opaque freeStop : Nat → Bool

/-- The default font, 16 glyphs of 5 bytes (20_memory.md R36). -/
def defaultGlyphBytes : List Byte :=
  [0xF0, 0x90, 0x90, 0x90, 0xF0] ++ [0x20, 0x60, 0x20, 0x20, 0x70] ++
  [0xF0, 0x10, 0xF0, 0x80, 0xF0] ++ [0xF0, 0x10, 0xF0, 0x10, 0xF0] ++
  [0x90, 0x90, 0xF0, 0x10, 0x10] ++ [0xF0, 0x80, 0xF0, 0x10, 0xF0] ++
  [0xF0, 0x80, 0xF0, 0x90, 0xF0] ++ [0xF0, 0x10, 0x20, 0x40, 0x40] ++
  [0xF0, 0x90, 0xF0, 0x90, 0xF0] ++ [0xF0, 0x90, 0xF0, 0x10, 0xF0] ++
  [0xF0, 0x90, 0xF0, 0x90, 0x90] ++ [0xE0, 0x90, 0xE0, 0x90, 0xE0] ++
  [0xF0, 0x80, 0x80, 0x80, 0xF0] ++ [0xE0, 0x90, 0x90, 0x90, 0xE0] ++
  [0xF0, 0x80, 0xF0, 0x80, 0xF0] ++ [0xF0, 0x80, 0xF0, 0x80, 0x80]

/-- The default `FONT_GLYPHS` (R7, R36). -/
def defaultGlyphs : Vector Byte 80 := ⟨⟨defaultGlyphBytes⟩, rfl⟩

/-- The parameters at their defaults (R7), for a given `TIME_HZ`, which has none. -/
def defaultParamsAt (hz : Nat) : Params where
  memSize := 4096
  fontBase := 0x50
  fontGlyphs := defaultGlyphs
  startPc := 0x200
  displayW := 64
  displayH := 32
  stackDepth := 16
  timeHz := hz
  bcdMode := .decimal
  fontWritable := false

/-- The default parameters, with `TIME_HZ` left free and at least 1 (log 2). -/
def defaultParams : Params := defaultParamsAt (openTimeHz + 1)

end Config
end Sys2Proof
end

