-- ==== Sys2Proof/Syntax.lean ====
section
/-! DEFINITION. The instructions: one constructor per row of spec/opcode_table.json (30_encoding.md R56, R57), 33 in
all, with the operands of the row's format. A field the semantics never reads (R61) is kept. -/

namespace Sys2Proof

/-- An instruction. `x`, `y` are register numbers, `n` a row count, `nn` a byte, `nnn` an address (R54). -/
inductive Instr where
  /-- 00E0 -/
  | cls
  /-- 00EE -/
  | ret
  /-- 1NNN -/
  | jp (nnn : Addr12)
  /-- 2NNN -/
  | call (nnn : Addr12)
  /-- 3XNN -/
  | seByte (x : Reg) (nn : Byte)
  /-- 4XNN -/
  | sneByte (x : Reg) (nn : Byte)
  /-- 5XY0 -/
  | seReg (x y : Reg)
  /-- 6XNN -/
  | ldByte (x : Reg) (nn : Byte)
  /-- 7XNN -/
  | addByte (x : Reg) (nn : Byte)
  /-- 8XY0 -/
  | ldReg (x y : Reg)
  /-- 8XY1 -/
  | orReg (x y : Reg)
  /-- 8XY2 -/
  | andReg (x y : Reg)
  /-- 8XY3 -/
  | xorReg (x y : Reg)
  /-- 8XY4 -/
  | addReg (x y : Reg)
  /-- 8XY5 -/
  | subReg (x y : Reg)
  /-- 8XY6 -/
  | shr (x y : Reg)
  /-- 8XY7 -/
  | subnReg (x y : Reg)
  /-- 8XYE -/
  | shl (x y : Reg)
  /-- 9XY0 -/
  | sneReg (x y : Reg)
  /-- ANNN -/
  | ldI (nnn : Addr12)
  /-- CXNN -/
  | rnd (x : Reg) (nn : Byte)
  /-- DXYN -/
  | drw (x y : Reg) (n : Nibble)
  /-- EX9E -/
  | skp (x : Reg)
  /-- EXA1 -/
  | sknp (x : Reg)
  /-- FX07 -/
  | ldFromDelay (x : Reg)
  /-- FX0A -/
  | ldKey (x : Reg)
  /-- FX15 -/
  | ldDelay (x : Reg)
  /-- FX18 -/
  | ldSound (x : Reg)
  /-- FX1E -/
  | addI (x : Reg)
  /-- FX29 -/
  | ldFont (x : Reg)
  /-- FX33 -/
  | ldBcd (x : Reg)
  /-- FX55 -/
  | storeRegs (x : Reg)
  /-- FX65 -/
  | loadRegs (x : Reg)
deriving DecidableEq, Repr

end Sys2Proof
end

