-- ==== Sys2Proof/WellFormed.lean ====
section
/-! DEFINITION. What a legal instruction, a legal set of parameters and a legal program are. An instruction needs no
check of its own: every value of every operand field is legal (30_encoding.md R55), and the fields' types hold
exactly those values (DEDUCED, safe: log 16). The checks are those of 00_scope.md R7 and 70_reset_and_hazards.md R124. -/

namespace Sys2Proof

/-- Every instruction is well formed: "no register operand is ever invalid" (R55). -/
def Instr.wellFormed : Instr → Bool := fun _ => true

/-- The constraints of R7 on the parameters alone. -/
def Params.wf (p : Params) : Bool :=
  decide (p.fontBase + 80 ≤ p.memSize) && decide (p.memSize ≤ 0x10000) && decide (p.startPc < p.memSize) &&
  decide (1 ≤ p.displayW) && decide (1 ≤ p.displayH) && decide (1 ≤ p.stackDepth) && decide (1 ≤ p.timeHz)

/-- The program fits: `START_PC + len(program) <= MEM_SIZE` (R124 step 2). -/
def Params.fits (p : Params) (len : Nat) : Bool := decide (p.startPc + len ≤ p.memSize)

/-- A program of this length meets the font region (R124 step 3). -/
def Params.overlapsFont (p : Params) (len : Nat) : Bool :=
  decide (0 < len) && decide (p.startPc < p.fontBase + 80) && decide (p.fontBase < p.startPc + len)

end Sys2Proof
end

