-- ==== Sys2Proof/Decode.lean ====
section
/-! DEFINITION. The decoder and, after it, the encoder, both from 30_encoding.md R51 to R61 and opcode_table.json;
and the opcode table itself as masks and patterns. -/

namespace Sys2Proof

/-! ## Fields of an instruction word (R9, R53, R54) -/

/-- `w = (b1 << 8) | b2`: `b1` is the byte at the lower address (R53). -/
def wordOfBytes (b1 b2 : Byte) : Word := (b1.setWidth 16 <<< 8) ||| b2.setWidth 16

/-- The first byte of an instruction word, at the lower address (R39). -/
def highByte (w : Word) : Byte := w.extractLsb' 8 8

/-- `w[15:12]`, the opcode class. -/
def nib1 (w : Word) : Nibble := w.extractLsb' 12 4

/-- `w[11:8]`. -/
def nib2 (w : Word) : Nibble := w.extractLsb' 8 4

/-- `w[7:4]`. -/
def nib3 (w : Word) : Nibble := w.extractLsb' 4 4

/-- `w[3:0]`: the function selector, or the count N. -/
def nib4 (w : Word) : Nibble := w.extractLsb' 0 4

/-- `NN = b2 = w[7:0]`. -/
def fieldNN (w : Word) : Byte := w.extractLsb' 0 8

/-- `NNN = w[11:0]`. -/
def fieldNNN (w : Word) : Addr12 := w.extractLsb' 0 12

/-- The register a nibble names: every value names one (R55). -/
def regOfNibble (n : Nibble) : Reg := ⟨n.toNat, n.isLt⟩

/-- `X = n2`. -/
def fieldX (w : Word) : Reg := regOfNibble (nib2 w)

/-- `Y = n3`. -/
def fieldY (w : Word) : Reg := regOfNibble (nib3 w)

/-! ## The decoder (R57 to R59) -/

/-- Why bytes are no instruction. -/
inductive DecodeError where
  /-- the word matches none of the 33 patterns: a decode failure (R59) -/
  | noPattern (w : Word)
  /-- fewer than the two bytes every instruction has (R51) -/
  | truncated
deriving DecidableEq, Repr

/-- Class 0: only the whole words 00E0 and 00EE (R58). -/
def decodeClass0 (w : Word) : Except DecodeError Instr :=
  if w = 0x00E0#16 then .ok .cls
  else if w = 0x00EE#16 then .ok .ret
  else .error (.noPattern w)

/-- Class 8: `n4` selects the operation (R58). -/
def decodeClass8 (w : Word) : Except DecodeError Instr :=
  match (nib4 w).toNat with
  | 0x0 => .ok (.ldReg (fieldX w) (fieldY w))
  | 0x1 => .ok (.orReg (fieldX w) (fieldY w))
  | 0x2 => .ok (.andReg (fieldX w) (fieldY w))
  | 0x3 => .ok (.xorReg (fieldX w) (fieldY w))
  | 0x4 => .ok (.addReg (fieldX w) (fieldY w))
  | 0x5 => .ok (.subReg (fieldX w) (fieldY w))
  | 0x6 => .ok (.shr (fieldX w) (fieldY w))
  | 0x7 => .ok (.subnReg (fieldX w) (fieldY w))
  | 0xE => .ok (.shl (fieldX w) (fieldY w))
  | _ => .error (.noPattern w)

/-- Class E: `b2` selects the key opcode (R58). -/
def decodeClassE (w : Word) : Except DecodeError Instr :=
  match (fieldNN w).toNat with
  | 0x9E => .ok (.skp (fieldX w))
  | 0xA1 => .ok (.sknp (fieldX w))
  | _ => .error (.noPattern w)

/-- Class F: `b2` selects the operation (R58). -/
def decodeClassF (w : Word) : Except DecodeError Instr :=
  match (fieldNN w).toNat with
  | 0x07 => .ok (.ldFromDelay (fieldX w))
  | 0x0A => .ok (.ldKey (fieldX w))
  | 0x15 => .ok (.ldDelay (fieldX w))
  | 0x18 => .ok (.ldSound (fieldX w))
  | 0x1E => .ok (.addI (fieldX w))
  | 0x29 => .ok (.ldFont (fieldX w))
  | 0x33 => .ok (.ldBcd (fieldX w))
  | 0x55 => .ok (.storeRegs (fieldX w))
  | 0x65 => .ok (.loadRegs (fieldX w))
  | _ => .error (.noPattern w)

/-- Decode: total on the 65536 words, by the class `n1` of R58. Class B is no instruction. -/
def decode (w : Word) : Except DecodeError Instr :=
  match (nib1 w).toNat with
  | 0x0 => decodeClass0 w
  | 0x1 => .ok (.jp (fieldNNN w))
  | 0x2 => .ok (.call (fieldNNN w))
  | 0x3 => .ok (.seByte (fieldX w) (fieldNN w))
  | 0x4 => .ok (.sneByte (fieldX w) (fieldNN w))
  | 0x5 => if nib4 w = 0#4 then .ok (.seReg (fieldX w) (fieldY w)) else .error (.noPattern w)
  | 0x6 => .ok (.ldByte (fieldX w) (fieldNN w))
  | 0x7 => .ok (.addByte (fieldX w) (fieldNN w))
  | 0x8 => decodeClass8 w
  | 0x9 => if nib4 w = 0#4 then .ok (.sneReg (fieldX w) (fieldY w)) else .error (.noPattern w)
  | 0xA => .ok (.ldI (fieldNNN w))
  | 0xB => .error (.noPattern w)
  | 0xC => .ok (.rnd (fieldX w) (fieldNN w))
  | 0xD => .ok (.drw (fieldX w) (fieldY w) (nib4 w))
  | 0xE => decodeClassE w
  | 0xF => decodeClassF w
  | _ => .error (.noPattern w)

/-- Decode from bytes, lowest address first: the instruction and the bytes after it (R39, R51). -/
def decodeBytes : List Byte → Except DecodeError (Instr × List Byte)
  | b1 :: b2 :: rest =>
    match decode (wordOfBytes b1 b2) with
    | .ok i => .ok (i, rest)
    | .error e => .error e
  | _ => .error .truncated

/-- The instruction the decoder reads from an instruction whose bits are `w`, numbered as opcode_table.json numbers
them; bits at `nbits` and above are 0. The word is laid out as the hardware stores it, high byte first (R39). -/
def decodeTableWord (nbits w : Nat) : Option Instr :=
  let word : Word := BitVec.ofNat 16 (w % 2 ^ nbits)
  match decodeBytes [highByte word, fieldNN word] with
  | .ok (i, _) => some i
  | .error _ => none

/-! ## The encoder, from the formats of R56 -/

/-- The four bits of a register field. -/
def nibbleOfReg (r : Reg) : Nibble := BitVec.ofNat 4 r.val

/-- The byte of two nibbles, the more significant first. -/
def byteOfNibbles (a b : Nibble) : Byte := (a.setWidth 8 <<< 4) ||| b.setWidth 8

/-- Format A: `op N N N`. -/
def encA (op : Nibble) (nnn : Addr12) : Word := (op.setWidth 16 <<< 12) ||| nnn.setWidth 16

/-- Format XNN (and Xff, with a fixed byte): `op X N N`. -/
def encXNN (op : Nibble) (x : Reg) (nn : Byte) : Word := wordOfBytes (byteOfNibbles op (nibbleOfReg x)) nn

/-- Format XY (and XYN, with the count): `op X Y f`. -/
def encXY (op : Nibble) (x y : Reg) (f : Nibble) : Word :=
  wordOfBytes (byteOfNibbles op (nibbleOfReg x)) (byteOfNibbles (nibbleOfReg y) f)

/-- The word of an instruction (R56, R58). -/
def encode : Instr → Word
  | .cls => 0x00E0#16
  | .ret => 0x00EE#16
  | .jp nnn => encA 0x1 nnn
  | .call nnn => encA 0x2 nnn
  | .seByte x nn => encXNN 0x3 x nn
  | .sneByte x nn => encXNN 0x4 x nn
  | .seReg x y => encXY 0x5 x y 0x0
  | .ldByte x nn => encXNN 0x6 x nn
  | .addByte x nn => encXNN 0x7 x nn
  | .ldReg x y => encXY 0x8 x y 0x0
  | .orReg x y => encXY 0x8 x y 0x1
  | .andReg x y => encXY 0x8 x y 0x2
  | .xorReg x y => encXY 0x8 x y 0x3
  | .addReg x y => encXY 0x8 x y 0x4
  | .subReg x y => encXY 0x8 x y 0x5
  | .shr x y => encXY 0x8 x y 0x6
  | .subnReg x y => encXY 0x8 x y 0x7
  | .shl x y => encXY 0x8 x y 0xE
  | .sneReg x y => encXY 0x9 x y 0x0
  | .ldI nnn => encA 0xA nnn
  | .rnd x nn => encXNN 0xC x nn
  | .drw x y n => encXY 0xD x y n
  | .skp x => encXNN 0xE x 0x9E
  | .sknp x => encXNN 0xE x 0xA1
  | .ldFromDelay x => encXNN 0xF x 0x07
  | .ldKey x => encXNN 0xF x 0x0A
  | .ldDelay x => encXNN 0xF x 0x15
  | .ldSound x => encXNN 0xF x 0x18
  | .addI x => encXNN 0xF x 0x1E
  | .ldFont x => encXNN 0xF x 0x29
  | .ldBcd x => encXNN 0xF x 0x33
  | .storeRegs x => encXNN 0xF x 0x55
  | .loadRegs x => encXNN 0xF x 0x65

/-- The bytes of an instruction, lowest address first (R39). -/
def encodeBytes (i : Instr) : List Byte := [highByte (encode i), fieldNN (encode i)]

/-! ## The opcode table as data (R57) -/

/-- One row of opcode_table.json: a word belongs to the row when `w &&& mask = pattern`. -/
structure OpcodeRow where
  mnemonic : String
  mask : Word
  pattern : Word
deriving DecidableEq, Repr

/-- Whether a word matches a row: wildcard nibbles match anything (R57). -/
def OpcodeRow.covers (row : OpcodeRow) (w : Word) : Bool := w &&& row.mask == row.pattern

/-- The rows of opcode_table.json, classes 0 to 7. -/
def opcodeRowsLow : List OpcodeRow :=
  [⟨"CLS", 0xFFFF, 0x00E0⟩, ⟨"RET", 0xFFFF, 0x00EE⟩, ⟨"JP_addr", 0xF000, 0x1000⟩,
   ⟨"CALL_addr", 0xF000, 0x2000⟩, ⟨"SE_Vx__byte", 0xF000, 0x3000⟩, ⟨"SNE_Vx__byte", 0xF000, 0x4000⟩,
   ⟨"SE_Vx__Vy", 0xF00F, 0x5000⟩, ⟨"LD_Vx__byte", 0xF000, 0x6000⟩, ⟨"ADD_Vx__byte", 0xF000, 0x7000⟩]

/-- The rows of opcode_table.json, classes 8 and 9. -/
def opcodeRowsMid : List OpcodeRow :=
  [⟨"LD_Vx__Vy", 0xF00F, 0x8000⟩, ⟨"OR_Vx__Vy", 0xF00F, 0x8001⟩, ⟨"AND_Vx__Vy", 0xF00F, 0x8002⟩,
   ⟨"XOR_Vx__Vy", 0xF00F, 0x8003⟩, ⟨"ADD_Vx__Vy", 0xF00F, 0x8004⟩, ⟨"SUB_Vx__Vy", 0xF00F, 0x8005⟩,
   ⟨"SHR_Vx__Vy", 0xF00F, 0x8006⟩, ⟨"SUBN_Vx__Vy", 0xF00F, 0x8007⟩, ⟨"SHL_Vx__Vy", 0xF00F, 0x800E⟩,
   ⟨"SNE_Vx__Vy", 0xF00F, 0x9000⟩]

/-- The rows of opcode_table.json, classes A to F. -/
def opcodeRowsHigh : List OpcodeRow :=
  [⟨"LD_I__addr", 0xF000, 0xA000⟩, ⟨"RND_Vx__byte", 0xF000, 0xC000⟩, ⟨"DRW_Vx__Vy__nib", 0xF000, 0xD000⟩,
   ⟨"SKP_Vx", 0xF0FF, 0xE09E⟩, ⟨"SKNP_Vx", 0xF0FF, 0xE0A1⟩, ⟨"LD_Vx__DT", 0xF0FF, 0xF007⟩,
   ⟨"LD_Vx__K", 0xF0FF, 0xF00A⟩, ⟨"LD_DT__Vx", 0xF0FF, 0xF015⟩, ⟨"LD_ST__Vx", 0xF0FF, 0xF018⟩,
   ⟨"ADD_I__Vx", 0xF0FF, 0xF01E⟩, ⟨"LD_F__Vx", 0xF0FF, 0xF029⟩, ⟨"LD_B__Vx", 0xF0FF, 0xF033⟩,
   ⟨"LD__I___Vx", 0xF0FF, 0xF055⟩, ⟨"LD_Vx___I", 0xF0FF, 0xF065⟩]

/-- The 33 rows (R57). -/
def opcodeTable : List OpcodeRow := opcodeRowsLow ++ opcodeRowsMid ++ opcodeRowsHigh

/-- The table's name of an instruction's row. -/
def Instr.mnemonic : Instr → String
  | .cls => "CLS"
  | .ret => "RET"
  | .jp _ => "JP_addr"
  | .call _ => "CALL_addr"
  | .seByte _ _ => "SE_Vx__byte"
  | .sneByte _ _ => "SNE_Vx__byte"
  | .seReg _ _ => "SE_Vx__Vy"
  | .ldByte _ _ => "LD_Vx__byte"
  | .addByte _ _ => "ADD_Vx__byte"
  | .ldReg _ _ => "LD_Vx__Vy"
  | .orReg _ _ => "OR_Vx__Vy"
  | .andReg _ _ => "AND_Vx__Vy"
  | .xorReg _ _ => "XOR_Vx__Vy"
  | .addReg _ _ => "ADD_Vx__Vy"
  | .subReg _ _ => "SUB_Vx__Vy"
  | .shr _ _ => "SHR_Vx__Vy"
  | .subnReg _ _ => "SUBN_Vx__Vy"
  | .shl _ _ => "SHL_Vx__Vy"
  | .sneReg _ _ => "SNE_Vx__Vy"
  | .ldI _ => "LD_I__addr"
  | .rnd _ _ => "RND_Vx__byte"
  | .drw _ _ _ => "DRW_Vx__Vy__nib"
  | .skp _ => "SKP_Vx"
  | .sknp _ => "SKNP_Vx"
  | .ldFromDelay _ => "LD_Vx__DT"
  | .ldKey _ => "LD_Vx__K"
  | .ldDelay _ => "LD_DT__Vx"
  | .ldSound _ => "LD_ST__Vx"
  | .addI _ => "ADD_I__Vx"
  | .ldFont _ => "LD_F__Vx"
  | .ldBcd _ => "LD_B__Vx"
  | .storeRegs _ => "LD__I___Vx"
  | .loadRegs _ => "LD_Vx___I"

end Sys2Proof
end

