-- ==== Sys2Proof/Machine/State.lean ====
section
/-! DEFINITION. The machine's state as plain data (10_state.md), the reasons a step can stop, and the state after
reset (70_reset_and_hazards.md R124, R125). -/

namespace Sys2Proof.Machine

/-- A timer (10_state.md R23). It is inert when `counter` is 0, and `startedAt` is then meaningless (44_timers.md R95). -/
structure Timer where
  counter : Byte
  startedAt : Nat
deriving DecidableEq, Repr

/-- The framebuffer: 1-bit pixels, row-major, pixel (x, y) at `y * DISPLAY_W + x` (R24). -/
abbrev Framebuffer := List Bool

/-- Memory as (address, byte) cells: addresses strictly rising, no cell equal to what an unlisted address reads as
(log 12). -/
abbrev Memory := List Host.Cell

/-- Why the machine halted, with the record 60_exceptions.md R108 gives the reason (R26). -/
inductive HaltReason where
  /-- the `stop` input; `addr` is pc at the stop (R116) -/
  | stopped (addr : Word)
  /-- no pattern matches the fetched word (R109) -/
  | decodeFailure (addr : Word) (b1 b2 : Byte) (n1 n2 n3 n4 : Nibble)
  /-- `00EE` at `addr` with an empty stack (R65) -/
  | stackUnderflow (addr : Word)
  /-- `2NNN` at `addr` with a full stack (R67) -/
  | stackOverflow (addr : Word)
  /-- a fetch with `pc + 1 >= MEM_SIZE`; `addr` is pc (R52) -/
  | fetchOutOfRange (addr : Word)
deriving DecidableEq, Repr

/-- The run status (R26). -/
inductive RunStatus where
  | running
  | halted (reason : HaltReason)
deriving DecidableEq, Repr

/-- A diagnostic event (R27). Its address is a natural number: an effective address does not wrap (R42). -/
inductive DiagEvent where
  | outOfRangeWrite (addr : Nat)
  | outOfRangeRead (addr : Nat)
  | readOnlyWrite (addr : Nat)
  | programLoaded (len : Nat)
deriving DecidableEq, Repr

/-- The three inputs of a step, sampled once and held for the whole step (R30). -/
structure StepInput where
  /-- the clock, in ticks of 1/`TIME_HZ` seconds -/
  now : Nat
  /-- the random byte -/
  rand : Byte
  /-- the stop request -/
  stop : Bool
deriving DecidableEq, Repr

/-- The machine's state: the ten components of 10_state.md, then what State carries for the host's step (log 1, log 3). -/
structure State where
  /-- `V[0]` to `V[15]` (R15) -/
  v : Vector Byte 16
  /-- the index register I (R19) -/
  i : Word
  /-- the program counter (R20) -/
  pc : Word
  /-- the call stack, top entry last (R21, R22) -/
  stack : List Word
  /-- the delay timer (R23) -/
  delay : Timer
  /-- the sound timer (R23) -/
  sound : Timer
  /-- `Fb` (R24) -/
  fb : Framebuffer
  /-- `mem` (R25) -/
  mem : Memory
  /-- `status` (R26) -/
  status : RunStatus
  /-- `diag`, oldest event first (R27) -/
  diag : List DiagEvent
  /-- the construction parameters (00_scope.md R7), which no step changes -/
  params : Params
  /-- the inputs held for the step in progress; between steps, those of the last step (R30) -/
  input : StepInput
  /-- MODEL'S OWN: the inputs the host has already fixed for the coming steps, next first (log 3) -/
  inputs : List StepInput
  /-- MODEL'S OWN: the number of steps begun, the index of the free values (log 3) -/
  tick : Nat
deriving DecidableEq, Repr

/-- Why a step answers no next state. -/
inductive Fault where
  /-- Raised by `step` alone, in a state whose status is already halted: "there is no step" from it (60_exceptions.md
  R107, R114). It carries the halt record. DEDUCED, safe: the machine does not go on there (log 5). -/
  | halted (reason : HaltReason)
deriving DecidableEq, Repr

/-- Why a step has no meaning. -/
inductive Refusal where
  /-- Raised by an arm of `exec` whose instruction has no meaning yet. No arm does. SAFE: nothing is claimed there. -/
  | notModelled (mnemonic : String)
deriving DecidableEq, Repr

/-- What a step or an instruction answers. -/
abbrev Result := Host.Outcome State Fault Refusal

/-- An inert timer as construction leaves it (R124 step 9). -/
def Timer.zero : Timer := ⟨0, 0⟩

/-- Every pixel 0 (R24, R124 step 9). -/
def blankFb (p : Params) : Framebuffer := List.replicate (p.displayW * p.displayH) false

/-- The state construction leaves for parameters `p`, memory `mem` and a program of `len` bytes (R124 steps 7 to 10,
R125). The last three fields are the model's: DESIGN CHOICE, safe, since no value of a step rests on them (log 11). -/
def State.initial (p : Params) (mem : Memory) (len : Nat) : State where
  v := Vector.replicate 16 0
  i := 0
  pc := BitVec.ofNat 16 p.startPc
  stack := []
  delay := Timer.zero
  sound := Timer.zero
  fb := blankFb p
  mem := mem
  status := .running
  diag := [.programLoaded len]
  params := p
  input := ⟨0, 0, false⟩
  inputs := []
  tick := 0

/-- The machine right after reset: the default construction with an empty program (R124, R126). DESIGN CHOICE, safe:
a program is loaded from outside (log 8). Memory lists nothing: the font and the zeroes of R37 are what unlisted
addresses read as. -/
def State.reset : State := State.initial Config.defaultParams [] 0

end Sys2Proof.Machine
end

