-- ==== Sys2Proof/Machine/Memory.lean ====
section
/-! DEFINITION. Memory as a canonical list of cells over its reset contents (20_memory.md R32 to R37). -/

namespace Sys2Proof.Machine

/-- Whether an address lies in the font region `[FONT_BASE, FONT_BASE + 80)` (R34). -/
def inFont (p : Params) (a : Nat) : Bool := decide (p.fontBase ≤ a) && decide (a < p.fontBase + 80)

/-- The font byte at offset `k`, 0 past the table (R36). -/
def glyphByte (p : Params) (k : Nat) : Byte := (p.fontGlyphs.toList[k]?).getD 0

/-- What an unlisted address reads as: its reset contents with no program, the font byte in the font region and 0
elsewhere (R37). DEDUCED, safe (log 12). -/
def background (p : Params) (a : Nat) : Byte := if inFont p a then glyphByte p (a - p.fontBase) else 0

namespace Memory

/-- The byte at an address. -/
def read (p : Params) : Memory → Nat → Byte
  | [], a => background p a
  | (b, w) :: rest, a => if a = b then w else read p rest a

/-- Put a cell in its place. -/
def insert (a : Nat) (v : Byte) : Memory → Memory
  | [] => [(a, v)]
  | (b, w) :: rest =>
    if a < b then (a, v) :: (b, w) :: rest
    else if a = b then (a, v) :: rest
    else (b, w) :: insert a v rest

/-- Drop an address's cell. -/
def erase (a : Nat) (m : Memory) : Memory := m.filter fun c => c.1 != a

/-- Store a byte, keeping the canonical form: writing what an unlisted address reads as removes the cell. -/
def write (p : Params) (m : Memory) (a : Nat) (v : Byte) : Memory :=
  if v = background p a then erase a m else insert a v m

/-- Store consecutive bytes from an address up (the loader, R124 step 6). -/
def load (p : Params) (m : Memory) (a : Nat) : List Byte → Memory
  | [] => m
  | b :: rest => load p (write p m a b) (a + 1) rest

/-- Addresses strictly rising from `lo` up, and no cell equal to what an unlisted address reads as. -/
def wfFrom (p : Params) : Nat → Memory → Bool
  | _, [] => true
  | lo, (a, v) :: rest => decide (lo ≤ a) && (v != background p a) && wfFrom p (a + 1) rest

/-- The canonical form. -/
def wf (p : Params) (m : Memory) : Bool := wfFrom p 0 m

/-- Every listed address exists (R25, R32). -/
def inBounds (p : Params) (m : Memory) : Bool := m.all fun c => decide (c.1 < p.memSize)

end Memory
end Sys2Proof.Machine
end

