-- ==== Sys2Proof/Machine/Flags.lean ====
section
/-! DEFINITION. Every flag computation: what the six flag instructions write to VF, from the operands as they were
before the instruction (10_state.md R17; 41_alu.md R79 to R83). Every value is 0 or 1. -/

namespace Sys2Proof.Machine

/-- A condition as a flag value. -/
def flagByte (b : Bool) : Byte := if b then 1 else 0

/-- 8XY4: `sum >> 8`, 1 iff the sum passes 255 (R79). -/
def carryFlag (a b : Byte) : Byte := BitVec.ofNat 8 ((a.toNat + b.toNat) / 256)

/-- 8XY5, 8XY7: 1 iff the minuend is strictly greater (R80, R82). -/
def noBorrowFlag (minuend subtrahend : Byte) : Byte := flagByte (decide (subtrahend < minuend))

/-- 8XY6: the bit shifted out at the right (R81). -/
def shiftRightFlag (a : Byte) : Byte := a &&& 1

/-- 8XYE: the bit shifted out at the left (R83). -/
def shiftLeftFlag (a : Byte) : Byte := (a >>> 7) &&& 1

end Sys2Proof.Machine
end

