-- ==== Sys2Proof/Machine/Operands.lean ====
section
/-! DEFINITION. Every operand form: register operands, immediates and effective addresses (30_encoding.md R55;
20_memory.md R42), and the one read and the one write of the register file (00_scope.md R10). -/

namespace Sys2Proof.Machine

/-- `V[r]` (R10, R15). -/
def State.readV (s : State) (r : Reg) : Byte := s.v[r]

/-- `V[r] <- b` (R10, R15). No register is hardwired. -/
def State.writeV (r : Reg) (b : Byte) (s : State) : State := { s with v := s.v.set r b }

/-- `I <- w`. -/
def State.writeI (w : Word) (s : State) : State := { s with i := w }

/-- `zext_16(NNN)` (R55). -/
def zextAddr (nnn : Addr12) : Word := nnn.setWidth 16

/-- The effective address `I + k`, a natural number without wrap (R42). -/
def State.ea (s : State) (k : Nat) : Nat := s.i.toNat + k

/-- The sixteen register numbers, ascending. -/
def allRegs : List Reg := [0, 1, 2, 3, 4, 5, 6, 7, 8, 9, 10, 11, 12, 13, 14, 15]

/-- The register numbers 0 to `x`, ascending: the operands of FX55 and FX65 (42_index_memory.md R89, R90). -/
def regsUpTo (x : Reg) : List Reg := allRegs.take (x.val + 1)

/-- The digits FX33 stores for a value, by mode (42_index_memory.md R87). -/
def bcdDigits (mode : BcdMode) (b : Byte) : List Byte :=
  let h : Byte := BitVec.ofNat 8 (b.toNat / 100)
  let t : Byte := BitVec.ofNat 8 (b.toNat / 10 % 10)
  let o : Byte := BitVec.ofNat 8 (b.toNat % 10)
  match mode with
  | .decimal => [h, t, o]
  | .referenceDup => [h, o, o]

/-- The address of the glyph FX29 points at, of the whole of `V[X]` (42_index_memory.md R86). -/
def glyphAddr (p : Params) (b : Byte) : Word := BitVec.ofNat 16 (p.fontBase + b.toNat * 5)

end Sys2Proof.Machine
end

