-- ==== Sys2Proof/Machine/Ops.lean ====
section
/-! DEFINITION. The shared operations over pc, the stack, memory, the timers and the run status (00_scope.md R10,
R11), and raising a fatal error. The hardware has no traps and no return from one (60_exceptions.md R113, R114):
a fatal error halts the machine, and `raiseFatal` is the one place where it does. -/

namespace Sys2Proof.Machine

/-! ## pc -/

/-- The fetch advance, and one skip: `pc <- (pc + 2) mod 0x10000` (30_encoding.md R52, 40_control_flow.md R63). -/
def State.advancePc (s : State) : State := { s with pc := s.pc + 2 }

/-- `pc <- target`. -/
def State.jump (target : Word) (s : State) : State := { s with pc := target }

/-- Skip the next instruction if the condition holds (R63). -/
def State.skipIf (c : Bool) (s : State) : State := if c then s.advancePc else s

/-- The address the current instruction was fetched from, before the instruction changes pc: the fetch advance of 2
undone (10_state.md R22). DEDUCED, safe (log 10). -/
def State.instrAddr (s : State) : Word := s.pc - 2

/-! ## Events and fatal errors -/

/-- Append a diagnostic event (00_scope.md R11, 10_state.md R27). -/
def State.log (e : DiagEvent) (s : State) : State := { s with diag := s.diag ++ [e] }

/-- `raise Fatal`: the status becomes halted, and every write already made stays (00_scope.md R11, 60_exceptions.md
R110). The `stop` request halts the same way (R116). -/
def State.raiseFatal (r : HaltReason) (s : State) : State := { s with status := .halted r }

/-- End an instruction that may have raised a fatal error: the halted state is a next state. DEDUCED, safe (log 6). -/
def finish (s : State) : Except HaltReason State → Result
  | .ok t => .next t
  | .error r => .next (s.raiseFatal r)

/-- The code of a halt reason (60_exceptions.md R108). -/
def haltCode : HaltReason → Nat
  | .stopped _ => 0
  | .decodeFailure _ _ _ _ _ _ _ => 1
  | .stackUnderflow _ => 2
  | .stackOverflow _ => 3
  | .fetchOutOfRange _ => 4

/-- Whether a halt reason is an error (60_exceptions.md R108: `Stopped` is not). -/
def haltIsError : HaltReason → Bool
  | .stopped _ => false
  | .decodeFailure _ _ _ _ _ _ _ => true
  | .stackUnderflow _ => true
  | .stackOverflow _ => true
  | .fetchOutOfRange _ => true

/-- The code of a non-fatal error (60_exceptions.md R108). Loading a program is no error and has none. -/
def eventCode : DiagEvent → Option Nat
  | .outOfRangeRead _ => some 5
  | .outOfRangeWrite _ => some 6
  | .readOnlyWrite _ => some 7
  | .programLoaded _ => none

/-! ## The call stack (10_state.md R22) -/

/-- `push(v)`: `v` becomes the top entry, unless the stack is full. -/
def State.push (w : Word) (s : State) : Except HaltReason State :=
  if s.stack.length = s.params.stackDepth then .error (.stackOverflow s.instrAddr)
  else .ok { s with stack := s.stack ++ [w] }

/-- `pop()`: the top entry, and the state without it. -/
def State.pop (s : State) : Except HaltReason (Word × State) :=
  match s.stack.getLast? with
  | none => .error (.stackUnderflow s.instrAddr)
  | some w => .ok (w, { s with stack := s.stack.dropLast })

/-! ## Memory (20_memory.md R42 to R44) -/

/-- The byte at an address, `none` where memory does not contain the address (R33). -/
def State.byteAt (s : State) (a : Nat) : Option Byte :=
  if a < s.params.memSize then some (Memory.read s.params s.mem a) else none

/-- The event a read of this address logs, if it is skipped (R43). -/
def readReject (p : Params) (a : Nat) : Option DiagEvent :=
  if p.memSize ≤ a then some (.outOfRangeRead a) else none

/-- The event a write to this address logs, if it is skipped (R44, R38). -/
def writeReject (p : Params) (a : Nat) : Option DiagEvent :=
  if p.memSize ≤ a then some (.outOfRangeWrite a)
  else if !p.fontWritable && inFont p a then some (.readOnlyWrite a)
  else none

/-- `MemRead(a, 1)`: the byte, or `none` with the event logged (R43). -/
def State.memRead (a : Nat) (s : State) : Option Byte × State :=
  match readReject s.params a with
  | some e => (none, s.log e)
  | none => (some (Memory.read s.params s.mem a), s)

/-- `MemWrite(a, 1, b)`: the byte stored, or the event logged and nothing stored (R44). -/
def State.memWrite (a : Nat) (b : Byte) (s : State) : State :=
  match writeReject s.params a with
  | some e => s.log e
  | none => { s with mem := Memory.write s.params s.mem a b }

/-- `MemWrite` of consecutive bytes, ascending, each checked alone (R42; 42_index_memory.md R87, R89). -/
def State.storeBytes (a : Nat) : List Byte → State → State
  | [], s => s
  | b :: rest, s => State.storeBytes (a + 1) rest (s.memWrite a b)

/-- `MemRead` of consecutive bytes into the listed registers, ascending; a skipped byte leaves its register
(42_index_memory.md R90). -/
def State.loadBytes (a : Nat) : List Reg → State → State
  | [], s => s
  | r :: rest, s =>
    match s.memRead a with
    | (some b, t) => State.loadBytes (a + 1) rest (t.writeV r b)
    | (none, t) => State.loadBytes (a + 1) rest t

/-! ## The timer unit (44_timers.md R96 to R98, R100) -/

/-- The decrements a timer started at `started` has suffered by `now`: the elapsed ticks, 0 if the clock ran
backwards, times 60 per second, rounded down (R96). -/
def decayed (hz started now : Nat) : Nat := 60 * (now - started) / hz

/-- `TimerValue(T, now)` (R96). -/
def timerValue (hz : Nat) (t : Timer) (now : Nat) : Byte :=
  if t.counter = 0 then 0
  else if decayed hz t.startedAt now < t.counter.toNat then
    BitVec.ofNat 8 (t.counter.toNat - decayed hz t.startedAt now)
  else 0

/-- `TimerWrite(T, v, now)`: the timer it leaves (R97). -/
def timerWrite (b : Byte) (now : Nat) : Timer := ⟨b, now⟩

/-- `DelayRead(now)`: the value, and the timer collapsed to inert when the value is 0 (R98). -/
def State.delayRead (s : State) : Byte × State :=
  let val := timerValue s.params.timeHz s.delay s.input.now
  if val = 0 then (val, { s with delay := { s.delay with counter := 0 } }) else (val, s)

/-- The output level `sound_active(now)`, which changes nothing (R100). -/
def State.soundActive (s : State) (now : Nat) : Bool :=
  decide (timerValue s.params.timeHz s.sound now ≠ 0)

/-! ## Results with a flag -/

/-- Write `V[X]`, then VF: the flag is the last register write, so it stays when `X = 15` (10_state.md R18). -/
def State.writeWithFlag (x : Reg) (b flag : Byte) (s : State) : State := (s.writeV x b).writeV VF flag

end Sys2Proof.Machine
end

