-- ==== Sys2Proof/Machine/Alu.lean ====
section
/-! DEFINITION. Register and arithmetic instructions (41_alu.md). Byte arithmetic wraps mod 256 (R72); operands are
read before anything is written (00_scope.md R12), and VF is written last (10_state.md R18). -/

namespace Sys2Proof.Machine

/-- 6XNN (R73). -/
def execLdByte (x : Reg) (nn : Byte) (s : State) : Result := .next (s.writeV x nn)

/-- 7XNN (R74): no flag. -/
def execAddByte (x : Reg) (nn : Byte) (s : State) : Result := .next (s.writeV x (s.readV x + nn))

/-- 8XY0 (R75). -/
def execLdReg (x y : Reg) (s : State) : Result := .next (s.writeV x (s.readV y))

/-- 8XY1 (R76): no flag. -/
def execOrReg (x y : Reg) (s : State) : Result := .next (s.writeV x (s.readV x ||| s.readV y))

/-- 8XY2 (R77): no flag. -/
def execAndReg (x y : Reg) (s : State) : Result := .next (s.writeV x (s.readV x &&& s.readV y))

/-- 8XY3 (R78): no flag. -/
def execXorReg (x y : Reg) (s : State) : Result := .next (s.writeV x (s.readV x ^^^ s.readV y))

/-- 8XY4 (R79): VF is the carry. -/
def execAddReg (x y : Reg) (s : State) : Result :=
  .next (s.writeWithFlag x (s.readV x + s.readV y) (carryFlag (s.readV x) (s.readV y)))

/-- 8XY5 (R80): VF is 1 iff `Vx > Vy`. -/
def execSubReg (x y : Reg) (s : State) : Result :=
  .next (s.writeWithFlag x (s.readV x - s.readV y) (noBorrowFlag (s.readV x) (s.readV y)))

/-- 8XY6 (R81): shifts `Vx`; `Vy` is never read (30_encoding.md R61). -/
def execShr (x _y : Reg) (s : State) : Result :=
  .next (s.writeWithFlag x (s.readV x >>> 1) (shiftRightFlag (s.readV x)))

/-- 8XY7 (R82): VF is 1 iff `Vy > Vx`. -/
def execSubnReg (x y : Reg) (s : State) : Result :=
  .next (s.writeWithFlag x (s.readV y - s.readV x) (noBorrowFlag (s.readV y) (s.readV x)))

/-- 8XYE (R83): shifts `Vx`; `Vy` is never read (30_encoding.md R61). -/
def execShl (x _y : Reg) (s : State) : Result :=
  .next (s.writeWithFlag x (s.readV x <<< 1) (shiftLeftFlag (s.readV x)))

/-- CXNN (R84): the step's random input, masked. -/
def execRnd (x : Reg) (nn : Byte) (s : State) : Result := .next (s.writeV x (s.input.rand &&& nn))

end Sys2Proof.Machine
end

