-- ==== Sys2Proof/Machine/ControlFlow.lean ====
section
/-! DEFINITION. Control flow (40_control_flow.md). Each meaning runs after the fetch advance of pc. -/

namespace Sys2Proof.Machine

/-- 00EE (R65): pc becomes the popped return address; an empty stack is fatal. -/
def execRet (s : State) : Result :=
  finish s (match s.pop with
    | .ok (target, t) => .ok (t.jump target)
    | .error r => .error r)

/-- 1NNN (R66). -/
def execJp (nnn : Addr12) (s : State) : Result := .next (s.jump (zextAddr nnn))

/-- 2NNN (R67): the advanced pc is pushed before pc is replaced; a full stack is fatal. -/
def execCall (nnn : Addr12) (s : State) : Result :=
  finish s (match s.push s.pc with
    | .ok t => .ok (t.jump (zextAddr nnn))
    | .error r => .error r)

/-- 3XNN (R68). -/
def execSeByte (x : Reg) (nn : Byte) (s : State) : Result := .next (s.skipIf (s.readV x == nn))

/-- 4XNN (R69). -/
def execSneByte (x : Reg) (nn : Byte) (s : State) : Result := .next (s.skipIf (s.readV x != nn))

/-- 5XY0 (R70). -/
def execSeReg (x y : Reg) (s : State) : Result := .next (s.skipIf (s.readV x == s.readV y))

/-- 9XY0 (R71). -/
def execSneReg (x y : Reg) (s : State) : Result := .next (s.skipIf (s.readV x != s.readV y))

end Sys2Proof.Machine
end

