-- ==== Sys2Proof/Machine/Display.lean ====
section
/-! DEFINITION. The display surface: clear and the XOR sprite blit (43_display.md). -/

namespace Sys2Proof.Machine

/-- Where pixel (x, y) stands in the framebuffer (10_state.md R24). -/
def pixelIndex (p : Params) (x y : Nat) : Nat := y * p.displayW + x

/-- `Fb[x, y]`. Only pixels of the surface are ever asked for. DESIGN CHOICE, safe (log 15). -/
def pixelAt (p : Params) (fb : Framebuffer) (x y : Nat) : Bool := (fb[pixelIndex p x y]?).getD false

/-- `Fb[x, y] <- Fb[x, y] ^ 1`. -/
def flipPixel (p : Params) (fb : Framebuffer) (x y : Nat) : Framebuffer :=
  fb.set (pixelIndex p x y) (!pixelAt p fb x y)

/-- A sprite byte's bit for column `c`: bit 7 is the leftmost (R91). -/
def spriteBit (b : Byte) (c : Nat) : Bool := b.getLsbD (7 - c)

/-- The columns of one sprite row (R91): columns past the right edge are dropped; a set bit flips its pixel, and
collides if the pixel was set. The pair is the framebuffer and whether anything has collided so far. -/
def blitColumns (p : Params) (x0 y : Nat) (b : Byte) : List Nat → Framebuffer × Bool → Framebuffer × Bool
  | [], acc => acc
  | c :: rest, acc =>
    if p.displayW ≤ x0 + c then acc
    else if spriteBit b c then
      blitColumns p x0 y b rest (flipPixel p acc.1 (x0 + c) y, acc.2 || pixelAt p acc.1 (x0 + c) y)
    else blitColumns p x0 y b rest acc

/-- The rows of a sprite (R91): rows past the bottom edge are dropped unread; a row whose byte is out of range is
logged and not drawn. -/
def blitRows (x0 y0 : Nat) : List Nat → State × Bool → State × Bool
  | [], acc => acc
  | r :: rest, (s, collided) =>
    if s.params.displayH ≤ y0 + r then (s, collided)
    else
      match s.memRead (s.ea r) with
      | (none, t) => blitRows x0 y0 rest (t, collided)
      | (some b, t) =>
        let drawn := blitColumns t.params x0 (y0 + r) b (List.range 8) (t.fb, collided)
        blitRows x0 y0 rest ({ t with fb := drawn.1 }, drawn.2)

/-- `Blit(vx, vy, n)` (R91): the origin wraps, the sprite is clipped. The pair is the state drawn on and the
collision bit. -/
def blit (vx vy : Byte) (n : Nibble) (s : State) : State × Bool :=
  blitRows (vx.toNat % s.params.displayW) (vy.toNat % s.params.displayH) (List.range n.toNat) (s, false)

/-- 00E0 (R93). -/
def execCls (s : State) : Result := .next { s with fb := blankFb s.params }

/-- DXYN (R94): VF, written last, is the collision bit. -/
def execDrw (x y : Reg) (n : Nibble) (s : State) : Result :=
  let drawn := blit (s.readV x) (s.readV y) n s
  .next (drawn.1.writeV VF (flagByte drawn.2))

end Sys2Proof.Machine
end

