-- ==== Sys2Proof/Machine/IndexMemory.lean ====
section
/-! DEFINITION. Index register and memory instructions (42_index_memory.md). No access is ever fatal: a byte out of
range, or a write to the protected font, is logged and skipped. `I` is unchanged by the memory instructions. -/

namespace Sys2Proof.Machine

/-- ANNN (R85). -/
def execLdI (nnn : Addr12) (s : State) : Result := .next (s.writeI (zextAddr nnn))

/-- FX29 (R86): the whole of `V[X]`, not its low nibble. -/
def execLdFont (x : Reg) (s : State) : Result := .next (s.writeI (glyphAddr s.params (s.readV x)))

/-- FX33 (R87). -/
def execLdBcd (x : Reg) (s : State) : Result :=
  .next (s.storeBytes (s.ea 0) (bcdDigits s.params.bcdMode (s.readV x)))

/-- FX1E (R88): no flag. -/
def execAddI (x : Reg) (s : State) : Result := .next (s.writeI (s.i + (s.readV x).setWidth 16))

/-- FX55 (R89). -/
def execStoreRegs (x : Reg) (s : State) : Result := .next (s.storeBytes (s.ea 0) ((regsUpTo x).map s.readV))

/-- FX65 (R90). -/
def execLoadRegs (x : Reg) (s : State) : Result := .next (s.loadBytes (s.ea 0) (regsUpTo x))

end Sys2Proof.Machine
end

