-- ==== Sys2Proof/Machine/InputStubs.lean ====
section
/-! DEFINITION. The key-input opcodes: recognised no-ops, whose only effect is the fetch advance already made
(45_input_stubs.md). `X` is never read. -/

namespace Sys2Proof.Machine

/-- EX9E (R104): no skip. -/
def execSkp (_x : Reg) (s : State) : Result := .next s

/-- EXA1 (R105): no skip, although no key is ever pressed. -/
def execSknp (_x : Reg) (s : State) : Result := .next s

/-- FX0A (R106): no wait, and `V[X]` is not written. -/
def execLdKey (_x : Reg) (s : State) : Result := .next s

end Sys2Proof.Machine
end

