-- ==== Sys2Proof/Machine/Timers.lean ====
section
/-! DEFINITION. The timer instructions (44_timers.md). `now` is the clock input held for the step. -/

namespace Sys2Proof.Machine

/-- FX07 (R101). -/
def execLdFromDelay (x : Reg) (s : State) : Result :=
  let got := s.delayRead
  .next (got.2.writeV x got.1)

/-- FX15 (R102). -/
def execLdDelay (x : Reg) (s : State) : Result :=
  .next { s with delay := timerWrite (s.readV x) s.input.now }

/-- FX18 (R103). -/
def execLdSound (x : Reg) (s : State) : Result :=
  .next { s with sound := timerWrite (s.readV x) s.input.now }

end Sys2Proof.Machine
end

