-- ==== Sys2Proof/Machine/Cycle.lean ====
section
/-! DEFINITION. Sampling the inputs, fetching, and the spec's `Step(now, rand, stop)` (60_exceptions.md R107). -/

namespace Sys2Proof.Machine

/-! ## The step's inputs (10_state.md R30; log 3, log 4) -/

/-- The inputs of the next step: those the host has fixed for it; or else free values, with a clock that has not run
backwards (log 3, log 4, log 17, log 18: DESIGN CHOICE). -/
def State.nextInput (s : State) : StepInput :=
  match s.inputs with
  | given :: _ => given
  | [] => ⟨s.input.now + Config.freeElapsed s.tick, Config.freeRand s.tick, Config.freeStop s.tick⟩

/-- The state once those inputs have been taken from the host. -/
def State.takeInput (s : State) : State := { s with inputs := s.inputs.tail, tick := s.tick + 1 }

/-- The state whose next step has no stop request; its clock and its random byte, free or fixed, and every later
step's inputs stay as they were. It stands for a host that lets the next instruction run (log 8). -/
def State.withStopLow (s : State) : State :=
  { s with inputs := { s.nextInput with stop := false } :: s.inputs.tail }

/-- The state with the inputs it holds for the whole step (R30). -/
def State.sample (inp : StepInput) (s : State) : State := { s with input := inp }

/-- The host fixes the inputs of the coming steps, after those already fixed (60_exceptions.md R122). -/
def State.schedule (given : List StepInput) (s : State) : State := { s with inputs := s.inputs ++ given }

/-! ## Fetch (30_encoding.md R52) -/

/-- `Fetch()`: the instruction's address, its two bytes, and the state with pc advanced; out of range pc is left. -/
def State.fetch (s : State) : Except HaltReason (Word × Byte × Byte × State) :=
  if s.params.memSize ≤ s.pc.toNat + 1 then .error (.fetchOutOfRange s.pc)
  else .ok (s.pc, Memory.read s.params s.mem s.pc.toNat, Memory.read s.params s.mem (s.pc.toNat + 1), s.advancePc)

/-- The halt record of a word that matches no pattern (60_exceptions.md R108, R109). -/
def decodeFailureAt (addr : Word) (b1 b2 : Byte) : HaltReason :=
  let w := wordOfBytes b1 b2
  .decodeFailure addr b1 b2 (nib1 w) (nib2 w) (nib3 w) (nib4 w)

/-! ## The step (60_exceptions.md R107, R112) -/

/-- What a running machine does in a step whose inputs are already held: stop, or fetch, decode and execute. -/
def runCycle (s : State) : Result :=
  if s.input.stop then .next (s.raiseFatal (.stopped s.pc))
  else
    match s.fetch with
    | .error r => .next (s.raiseFatal r)
    | .ok (addr, b1, b2, t) =>
      match decode (wordOfBytes b1 b2) with
      | .error _ => .next (t.raiseFatal (decodeFailureAt addr b1 b2))
      | .ok i => exec i t

/-- `Step(now, rand, stop)`: there is no step from a halted state (R107). DEDUCED, safe (log 5). -/
def stepWith (inp : StepInput) (s : State) : Result :=
  match s.status with
  | .halted r => .fault (.halted r)
  | .running => runCycle (s.sample inp)

/-- Store an instruction's bytes, lowest address first, where memory has the addresses: the program a host loads,
not an instruction's store, so the font's protection does not apply. DESIGN CHOICE (log 8). -/
def State.placeBytes (a : Nat) : List Byte → State → State
  | [], s => s
  | b :: rest, s =>
    State.placeBytes (a + 1) rest
      (if a < s.params.memSize then { s with mem := Memory.write s.params s.mem a b } else s)

end Sys2Proof.Machine
end

