-- ==== Sys2Proof/Machine/Construct.lean ====
section
/-! DEFINITION. Construction, the only reset (70_reset_and_hazards.md R124), and the outputs the host observes
between steps (10_state.md R31). -/

namespace Sys2Proof.Machine

/-- Why construction yields no machine (R124). -/
inductive LoadFailure where
  /-- a parameter outside its constraint; the spec names no failure for it. DESIGN CHOICE, safe (log 9) -/
  | badParameters
  /-- `LoadOverflow` -/
  | loadOverflow
  /-- `LoadOverlapsFont` -/
  | loadOverlapsFont
deriving DecidableEq, Repr

/-- `Construct(params, program)` (R124): the checks come before anything is written. Steps 4 and 5, the zeroes and
the font, are what unlisted addresses read as. -/
def construct (p : Params) (program : List Byte) : Except LoadFailure State :=
  if !p.wf then .error .badParameters
  else if !p.fits program.length then .error .loadOverflow
  else if p.overlapsFont program.length then .error .loadOverlapsFont
  else .ok (State.initial p (Memory.load p [] p.startPc program) program.length)

/-- What the host observes between steps (R31). -/
structure Outputs where
  fb : Framebuffer
  status : RunStatus
  diag : List DiagEvent
  soundActive : Bool
deriving DecidableEq, Repr

/-- The outputs at a clock value (R31, 44_timers.md R100). -/
def State.outputs (s : State) (now : Nat) : Outputs := ⟨s.fb, s.status, s.diag, s.soundActive now⟩

end Sys2Proof.Machine
end

