-- ==== Sys2Proof/Machine/Step.lean ====
section
/-! DEFINITION. The host's step: one step of the spec with the inputs State holds for it. -/

namespace Sys2Proof.Machine

/-- One step (60_exceptions.md R107). -/
def step (s : State) : Host.Outcome State Fault Refusal := stepWith s.nextInput s.takeInput

/-- `s` with an instruction stored where step fetches its next one, at pc and pc + 1, high byte first (20_memory.md
R39), and no stop request in that step; bits of `w` at `nbits` and above are 0. It stands for the load of a program
from outside, by a host that then lets it run (log 8). -/
def State.withFetchWord (s : State) (nbits w : Nat) : State :=
  (s.placeBytes s.pc.toNat
    [highByte (BitVec.ofNat 16 (w % 2 ^ nbits)), fieldNN (BitVec.ofNat 16 (w % 2 ^ nbits))]).withStopLow

end Sys2Proof.Machine
end

