-- ==== Sys2Proof/Safety.lean ====
section
/-! DEFINITION. The words claims are stated in: what an instruction may change (its footprint), the invariants of a
state, the events a run of accesses logs, the pixels a sprite covers, and which halts are errors. -/

namespace Sys2Proof.Safety

open Sys2Proof.Machine

/-! ## Footprints: what may change, everything else staying as it was -/

/-- What an instruction may change. A component left at its default is unchanged. -/
structure Footprint where
  regs : List Reg := []
  mem : List Nat := []
  i : Bool := false
  pc : Bool := false
  stack : Bool := false
  delay : Bool := false
  sound : Bool := false
  fb : Bool := false
  status : Bool := false
  diag : Bool := false

/-- `t` differs from `s` at most where the footprint allows. No footprint lets the parameters or the inputs change. -/
structure Footprint.Keeps (f : Footprint) (s t : State) : Prop where
  regs : ∀ r, r ∉ f.regs → t.readV r = s.readV r
  mem : ∀ a, a ∉ f.mem → t.byteAt a = s.byteAt a
  i : f.i = false → t.i = s.i
  pc : f.pc = false → t.pc = s.pc
  stack : f.stack = false → t.stack = s.stack
  delay : f.delay = false → t.delay = s.delay
  sound : f.sound = false → t.sound = s.sound
  fb : f.fb = false → t.fb = s.fb
  status : f.status = false → t.status = s.status
  diag : f.diag = false → t.diag = s.diag
  params : t.params = s.params
  input : t.input = s.input
  inputs : t.inputs = s.inputs
  tick : t.tick = s.tick

/-- The addresses FX33 and FX55 store to: `n` of them from `I` up (20_memory.md R42). -/
def storedAddrs (s : State) (n : Nat) : List Nat := (List.range n).map s.ea

/-- The byte at an address once `bytes` have been stored from `I` up: the stored one where the address is among
theirs and the write there is accepted, else the one it held (20_memory.md R42, R44). -/
def byteAfterStore (s : State) (bytes : List Byte) (a : Nat) : Option Byte :=
  if s.ea 0 ≤ a ∧ a < s.ea bytes.length ∧ writeReject s.params a = none then bytes[a - s.ea 0]? else s.byteAt a

/-- What each instruction may change (10_state.md R16 to R24; the rules of 40_ to 45_). -/
def footprint (s : State) : Instr → Footprint
  | .cls => { fb := true }
  | .ret => { pc := true, stack := true, status := true }
  | .jp _ => { pc := true }
  | .call _ => { pc := true, stack := true, status := true }
  | .seByte _ _ => { pc := true }
  | .sneByte _ _ => { pc := true }
  | .seReg _ _ => { pc := true }
  | .ldByte x _ => { regs := [x] }
  | .addByte x _ => { regs := [x] }
  | .ldReg x _ => { regs := [x] }
  | .orReg x _ => { regs := [x] }
  | .andReg x _ => { regs := [x] }
  | .xorReg x _ => { regs := [x] }
  | .addReg x _ => { regs := [x, VF] }
  | .subReg x _ => { regs := [x, VF] }
  | .shr x _ => { regs := [x, VF] }
  | .subnReg x _ => { regs := [x, VF] }
  | .shl x _ => { regs := [x, VF] }
  | .sneReg _ _ => { pc := true }
  | .ldI _ => { i := true }
  | .rnd x _ => { regs := [x] }
  | .drw _ _ _ => { regs := [VF], fb := true, diag := true }
  | .skp _ => {}
  | .sknp _ => {}
  | .ldFromDelay x => { regs := [x], delay := true }
  | .ldKey _ => {}
  | .ldDelay _ => { delay := true }
  | .ldSound _ => { sound := true }
  | .addI _ => { i := true }
  | .ldFont _ => { i := true }
  | .ldBcd _ => { mem := storedAddrs s 3, diag := true }
  | .storeRegs x => { mem := storedAddrs s (x.val + 1), diag := true }
  | .loadRegs x => { regs := regsUpTo x, diag := true }

/-! ## Events of a run of accesses, in the order of the accesses (60_exceptions.md R112) -/

/-- The events a store of `n` bytes from `a` up logs. -/
def storeEvents (p : Params) (a n : Nat) : List DiagEvent :=
  (List.range n).filterMap fun k => writeReject p (a + k)

/-- The events a read of `n` bytes from `a` up logs. -/
def readEvents (p : Params) (a n : Nat) : List DiagEvent :=
  (List.range n).filterMap fun k => readReject p (a + k)

/-! ## Sprites, said pixel by pixel (43_display.md R91) -/

/-- The first column of a sprite drawn at coordinate `vx`. -/
def originX (p : Params) (vx : Byte) : Nat := vx.toNat % p.displayW

/-- The first row of a sprite drawn at coordinate `vy`. -/
def originY (p : Params) (vy : Byte) : Nat := vy.toNat % p.displayH

/-- Whether an `n`-row sprite at `I`, drawn at (vx, vy), has a set bit on pixel (x, y): the pixel lies in one of its
rows and columns counted from the origin, the row's byte exists, and its bit is set, bit 7 leftmost. -/
def spriteCovers (s : State) (vx vy : Byte) (n : Nibble) (x y : Nat) : Bool :=
  decide (originX s.params vx ≤ x) && decide (x < originX s.params vx + 8) &&
  decide (originY s.params vy ≤ y) && decide (y < originY s.params vy + n.toNat) &&
  match s.byteAt (s.ea (y - originY s.params vy)) with
  | some b => b.getLsbD (7 - (x - originX s.params vx))
  | none => false

/-- How many rows of an `n`-row sprite lie above the bottom edge. -/
def visibleRows (p : Params) (vy : Byte) (n : Nibble) : Nat := min n.toNat (p.displayH - originY p vy)

/-! ## Invariants -/

/-- The invariant of every state a construction and steps lead to: legal parameters, canonical memory within its
bounds, a stack no deeper than it may be, a surface of the right size, and, where it is protected, the font as it
was written at construction (20_memory.md R38). -/
structure Inv (s : State) : Prop where
  params : s.params.wf = true
  memWf : Memory.wf s.params s.mem = true
  memInBounds : Memory.inBounds s.params s.mem = true
  stackFits : s.stack.length ≤ s.params.stackDepth
  fbSize : s.fb.length = s.params.displayW * s.params.displayH
  fontIntact : s.params.fontWritable = false →
    ∀ k, k < 80 → s.byteAt (s.params.fontBase + k) = some (glyphByte s.params k)

/-- The host's duty on the clock (10_state.md R30), and what follows of it: the clock values it has fixed never
decrease, and no timer was started later than the last one. -/
structure ClockInv (s : State) : Prop where
  ordered : List.Pairwise (· ≤ ·) (s.input.now :: s.inputs.map StepInput.now)
  delayStarted : s.delay.startedAt ≤ s.input.now
  soundStarted : s.sound.startedAt ≤ s.input.now

/-! ## Runs -/

/-- The state an instruction leaves, each instruction run after the fetch advance of pc, one after another. -/
def execSeq : List Instr → State → Result
  | [], s => .next s
  | i :: rest, s =>
    match exec i s.advancePc with
    | .next t => execSeq rest t
    | .fault r => .fault r
    | .refused r => .refused r

/-- A run is clean while no error has halted it; a stop request is no error (60_exceptions.md R108). -/
def clean (s : State) : Bool :=
  match s.status with
  | .running => true
  | .halted r => !haltIsError r

end Sys2Proof.Safety
end

