-- ==== Sys2Proof/Certificates/Slice0/Obligations.lean ====
section
/-! DEFINITION. The statements for the provers. `exec i s` runs instruction `i` after the fetch advance, so `s.pc` is
the address of the next instruction in sequence (10_state.md R20). -/

open Sys2Proof Sys2Proof.Machine Sys2Proof.Safety

/-! ## Encoding (30_encoding.md) -/

/-- Words written out from the encodings of R56 and R58, one or more of every family, decode to what they stand for;
words R58 names as failing do not decode. -/
def Obligations.SpecWordsDecode : Prop :=
  decode 0x00E0 = .ok .cls ∧ decode 0x00EE = .ok .ret ∧ decode 0x1234 = .ok (.jp 0x234) ∧
  decode 0x3342 = .ok (.seByte 3 0x42) ∧ decode 0x7220 = .ok (.addByte 2 0x20) ∧
  decode 0x8124 = .ok (.addReg 1 2) ∧ decode 0x812E = .ok (.shl 1 2) ∧ decode 0xA300 = .ok (.ldI 0x300) ∧
  decode 0xC10F = .ok (.rnd 1 0x0F) ∧ decode 0xD015 = .ok (.drw 0 1 5) ∧ decode 0xE19E = .ok (.skp 1) ∧
  decode 0xF107 = .ok (.ldFromDelay 1) ∧ decode 0xF265 = .ok (.loadRegs 2) ∧
  decode 0xB123 = .error (.noPattern 0xB123) ∧ decode 0x0123 = .error (.noPattern 0x0123) ∧
  decode 0x5121 = .error (.noPattern 0x5121) ∧ decode 0x8008 = .error (.noPattern 0x8008)

/-- Decoding an encoded instruction gives it back, with every operand at every value, whatever bytes follow it. -/
def Obligations.DecodeOfEncodeIsTheInstruction : Prop :=
  ∀ (i : Instr) (rest : List Byte),
    decode (encode i) = .ok i ∧ decodeBytes (encodeBytes i ++ rest) = .ok (i, rest)

/-- Each word has one meaning: encoding what a word decodes to gives the word back. -/
def Obligations.EncodeOfDecodeIsTheWord : Prop :=
  ∀ (w : Word) (i : Instr), decode w = .ok i → encode i = w

/-- R57: the table has 33 rows, no word matches two of them, and the decoder reads from every word a row covers an
instruction of that row, from no other word an instruction, and fails on a word no row covers (R59). -/
def Obligations.DecodeFollowsTheOpcodeTable : Prop :=
  opcodeTable.length = 33 ∧
  (∀ (w : Word) (r q : OpcodeRow), r ∈ opcodeTable → q ∈ opcodeTable →
    r.covers w = true → q.covers w = true → r = q) ∧
  (∀ (w : Word) (row : OpcodeRow), row ∈ opcodeTable → row.covers w = true →
    ∃ i, decode w = .ok i ∧ i.mnemonic = row.mnemonic) ∧
  (∀ (w : Word) (i : Instr), decode w = .ok i →
    ∃ row ∈ opcodeTable, row.mnemonic = i.mnemonic ∧ row.covers w = true) ∧
  (∀ w : Word, (∀ row ∈ opcodeTable, row.covers w = false) → decode w = .error (.noPattern w))

/-! ## Construction and reset (70_reset_and_hazards.md) -/

/-- R124: the checks of construction, in their order: the constraints of R7 on the parameters (those on `FONT_GLYPHS`,
`BCD_MODE` and `FONT_WRITABLE` hold by their types), the program's size, and the program's place beside the font. The
failure of the first is the model's name (log 9). -/
def Obligations.ConstructionRefusesInOrder : Prop :=
  ∀ (p : Params) (program : List Byte),
    (p.wf = true ↔ p.fontBase + 80 ≤ p.memSize ∧ p.memSize ≤ 0x10000 ∧ p.startPc < p.memSize ∧
      1 ≤ p.displayW ∧ 1 ≤ p.displayH ∧ 1 ≤ p.stackDepth ∧ 1 ≤ p.timeHz) ∧
    (p.wf = false → construct p program = .error .badParameters) ∧
    (p.wf = true → p.memSize < p.startPc + program.length → construct p program = .error .loadOverflow) ∧
    (p.wf = true → p.startPc + program.length ≤ p.memSize →
      0 < program.length → p.startPc < p.fontBase + 80 → p.fontBase < p.startPc + program.length →
      construct p program = .error .loadOverlapsFont)

/-- R125 and R37: the state after construction, for all legal parameters and every program that fits and does not
meet the font. -/
def Obligations.ConstructionLeavesTheResetState : Prop :=
  ∀ (p : Params) (program : List Byte), p.wf = true → p.startPc + program.length ≤ p.memSize →
    ¬ (0 < program.length ∧ p.startPc < p.fontBase + 80 ∧ p.fontBase < p.startPc + program.length) →
    ∃ s, construct p program = .ok s ∧ s.params = p ∧
      (∀ r, s.readV r = 0) ∧ s.i = 0 ∧ s.pc.toNat = p.startPc ∧ s.stack = [] ∧
      s.delay = ⟨0, 0⟩ ∧ s.sound = ⟨0, 0⟩ ∧
      s.fb.length = p.displayW * p.displayH ∧ (∀ pixel ∈ s.fb, pixel = false) ∧
      s.status = .running ∧ s.diag = [.programLoaded program.length] ∧
      (∀ k, k < 80 → s.byteAt (p.fontBase + k) = p.fontGlyphs[k]?) ∧
      (∀ k, k < program.length → s.byteAt (p.startPc + k) = program[k]?) ∧
      (∀ a, a < p.memSize → ¬ (p.fontBase ≤ a ∧ a < p.fontBase + 80) →
        ¬ (p.startPc ≤ a ∧ a < p.startPc + program.length) → s.byteAt a = some 0)

/-- Every construction yields a state that meets the invariant. -/
def Obligations.ConstructionMeetsTheInvariant : Prop :=
  ∀ (p : Params) (program : List Byte) (s : State), construct p program = .ok s → Inv s

/-- The model's reset state is the default construction with an empty program (log 8). -/
def Obligations.ResetIsTheDefaultConstruction : Prop :=
  construct Config.defaultParams [] = .ok State.reset

/-! ## The step (60_exceptions.md R107 to R116) -/

/-- R107: a running machine whose stop input is low and whose fetch is in range runs the instruction its two bytes
decode to, with pc advanced and the step's inputs held. -/
def Obligations.StepRunsTheDecodedInstruction : Prop :=
  ∀ (s : State) (i : Instr), s.status = .running → s.nextInput.stop = false →
    s.pc.toNat + 1 < s.params.memSize →
    decode (wordOfBytes (Memory.read s.params s.mem s.pc.toNat)
      (Memory.read s.params s.mem (s.pc.toNat + 1))) = .ok i →
    step s = exec i { s with
      pc := s.pc + 2, input := s.nextInput, inputs := s.inputs.tail, tick := s.tick + 1 }

/-- Where the host has fixed inputs for the step, the step has those; with none fixed, the clock has not run
backwards, and the random byte and the stop request are free values (log 3, log 4). -/
def Obligations.StepTakesTheHostsInputs : Prop :=
  (∀ (s : State) (inp : StepInput) (rest : List StepInput), s.inputs = inp :: rest →
    step s = stepWith inp { s with inputs := rest, tick := s.tick + 1 }) ∧
  (∀ s : State, s.inputs = [] → ∃ inp : StepInput, s.input.now ≤ inp.now ∧
    inp.rand = Config.freeRand s.tick ∧ inp.stop = Config.freeStop s.tick ∧
    step s = stepWith inp { s with tick := s.tick + 1 })

/-- R116: a stop request halts before the fetch, with pc unchanged and nothing executed. -/
def Obligations.StopHaltsBeforeTheFetch : Prop :=
  ∀ s : State, s.status = .running → s.nextInput.stop = true →
    step s = .next { s with
      status := .halted (.stopped s.pc), input := s.nextInput, inputs := s.inputs.tail, tick := s.tick + 1 }

/-- R52: the fetch reads the bytes at pc and pc + 1 and advances pc by 2; where the second is beyond memory it is
fatal, with pc left. -/
def Obligations.FetchReadsTwoBytesOrHalts : Prop :=
  (∀ s : State, s.pc.toNat + 1 < s.params.memSize → ∃ b1 b2, s.byteAt s.pc.toNat = some b1 ∧
    s.byteAt (s.pc.toNat + 1) = some b2 ∧
    s.fetch = .ok (s.pc, b1, b2, { s with pc := BitVec.ofNat 16 ((s.pc.toNat + 2) % 0x10000) })) ∧
  (∀ s : State, s.params.memSize ≤ s.pc.toNat + 1 → s.status = .running → s.nextInput.stop = false →
    step s = .next { s with
      status := .halted (.fetchOutOfRange s.pc)
      input := s.nextInput, inputs := s.inputs.tail, tick := s.tick + 1 })

/-- R109: a word that decodes to nothing halts the machine, with the advanced pc, and the record holds the address,
the raw bytes and the four nibbles. -/
def Obligations.DecodeFailureHalts : Prop :=
  ∀ (s : State) (b1 b2 : Byte) (e : DecodeError), s.status = .running → s.nextInput.stop = false →
    s.pc.toNat + 1 < s.params.memSize → s.byteAt s.pc.toNat = some b1 → s.byteAt (s.pc.toNat + 1) = some b2 →
    decode (wordOfBytes b1 b2) = .error e →
    step s = .next { s with
      pc := s.pc + 2
      status := .halted (.decodeFailure s.pc b1 b2 (b1.extractLsb' 4 4) (b1.extractLsb' 0 4)
        (b2.extractLsb' 4 4) (b2.extractLsb' 0 4))
      input := s.nextInput, inputs := s.inputs.tail, tick := s.tick + 1 }

/-- R107, R110, R114: from a halted state there is no step, whatever the inputs. The fault is the model's way to say
so (log 5). -/
def Obligations.HaltedMachineHasNoStep : Prop :=
  ∀ (s : State) (r : HaltReason), s.status = .halted r →
    step s = .fault (.halted r) ∧ ∀ inp, stepWith inp s = .fault (.halted r)

/-- Every running state has a next state: no instruction ends a run in a fault or a refusal. -/
def Obligations.RunningMachineHasANextState : Prop :=
  ∀ s : State, (∃ t, step s = .next t) ↔ s.status = .running

/-- R112: a step halts for exactly one reason, tried in this order: the stop input, the fetch, the decode, the
instruction's own stack error. -/
def Obligations.StepHaltsInThePriorityOrder : Prop :=
  ∀ (s t : State) (r : HaltReason), step s = .next t →
    let b1 := Memory.read s.params s.mem s.pc.toNat
    let b2 := Memory.read s.params s.mem (s.pc.toNat + 1)
    let fetched := s.nextInput.stop = false ∧ s.pc.toNat + 1 < s.params.memSize
    (t.status = .halted r ↔
      (s.nextInput.stop = true ∧ r = .stopped s.pc) ∨
      (s.nextInput.stop = false ∧ s.params.memSize ≤ s.pc.toNat + 1 ∧ r = .fetchOutOfRange s.pc) ∨
      (fetched ∧ (∃ e, decode (wordOfBytes b1 b2) = .error e) ∧ r = decodeFailureAt s.pc b1 b2) ∨
      (fetched ∧ decode (wordOfBytes b1 b2) = .ok .ret ∧ s.stack = [] ∧ r = .stackUnderflow s.pc) ∨
      (fetched ∧ (∃ nnn, decode (wordOfBytes b1 b2) = .ok (.call nnn)) ∧
        s.stack.length = s.params.stackDepth ∧ r = .stackOverflow s.pc))

/-- R110: a halted state holds no effect of the halting step beyond the fetch advance (and the inputs it took). -/
def Obligations.HaltedStateHoldsNoPartialEffects : Prop :=
  ∀ (s t : State) (r : HaltReason), step s = .next t → t.status = .halted r →
    (t.pc = s.pc ∨ t.pc = s.pc + 2) ∧
    t = { s with
      pc := t.pc, status := .halted r, input := s.nextInput, inputs := s.inputs.tail, tick := s.tick + 1 }

/-! ## Invariants -/

/-- Every step keeps the invariant: legal parameters, canonical memory within bounds, a stack within its depth, a
surface of the right size, and an intact font where it is protected. -/
def Obligations.StepKeepsTheInvariant : Prop :=
  ∀ s t : State, Inv s → step s = .next t → Inv t

/-- The reset state meets the invariant. -/
def Obligations.ResetMeetsTheInvariant : Prop := Inv State.reset

/-- R30: while the clock values the host fixes do not decrease, no step breaks that, and no timer was started later
than the last clock value, so that the clamp of R96 is never needed. -/
def Obligations.StepKeepsTheClockOrder : Prop :=
  ∀ s t : State, ClockInv s → step s = .next t → ClockInv t

/-- R38: with `FONT_WRITABLE` false no step changes a font byte, and a data write there changes nothing and logs the
event; with it true the region is ordinary memory for writes; reads are always allowed. -/
def Obligations.FontRegionIsImmutable : Prop :=
  ∀ (s : State) (a : Nat) (b : Byte), s.params.fontBase ≤ a → a < s.params.fontBase + 80 → a < s.params.memSize →
    (s.params.fontWritable = false → ∀ t, step s = .next t → t.byteAt a = s.byteAt a) ∧
    (s.params.fontWritable = false → s.memWrite a b = { s with diag := s.diag ++ [.readOnlyWrite a] }) ∧
    (s.params.fontWritable = true → (s.memWrite a b).byteAt a = some b ∧ (s.memWrite a b).diag = s.diag) ∧
    (∃ c, s.byteAt a = some c ∧ s.memRead a = (some c, s))

/-- Equal memories are equal data: two canonical memories that read alike are the same list (log 12). -/
def Obligations.CanonicalMemoryIsUnique : Prop :=
  ∀ (p : Params) (m n : Memory), Memory.wf p m = true → Memory.wf p n = true →
    (∀ a, Memory.read p m a = Memory.read p n a) → m = n

/-! ## Whole-machine rules -/

/-- Every instruction changes only its footprint: registers, memory, pc, stack, timers, surface, status and events
each have only the writers the spec lists (10_state.md R16, R19 to R24). -/
def Obligations.ExecChangesOnlyItsFootprint : Prop :=
  ∀ (i : Instr) (s t : State), exec i s = .next t → (footprint s i).Keeps s t

/-- R20: what an instruction leaves in pc: the advanced value, 2 more for a skip, the target of a jump or call, or
the return address popped. -/
def Obligations.PcChangesOnlyAsListed : Prop :=
  ∀ (i : Instr) (s t : State), exec i s = .next t →
    t.pc = s.pc ∨
    (((∃ x nn, i = .seByte x nn ∨ i = .sneByte x nn) ∨ (∃ x y, i = .seReg x y ∨ i = .sneReg x y)) ∧
      t.pc = s.pc + 2) ∨
    (∃ nnn, (i = .jp nnn ∨ i = .call nnn) ∧ t.pc.toNat = nnn.toNat) ∨
    (i = .ret ∧ s.stack.getLast? = some t.pc)

/-- R17: every value the six flag instructions leave in VF is 0 or 1. -/
def Obligations.FlagsAreZeroOrOne : Prop :=
  ∀ (i : Instr) (s t : State),
    ((∃ x y, i = .addReg x y ∨ i = .subReg x y ∨ i = .shr x y ∨ i = .subnReg x y ∨ i = .shl x y) ∨
      ∃ x y n, i = .drw x y n) →
    exec i s = .next t → t.readV VF = 0 ∨ t.readV VF = 1

/-- R27: `diag` is append-only, and its contents never change the value of any other state. -/
def Obligations.DiagIsAppendOnlyAndNeverRead : Prop :=
  ∀ s t : State, step s = .next t →
    ∃ new, t.diag = s.diag ++ new ∧
      ∀ d, step { s with diag := d } = .next { t with diag := d ++ new }

/-- R30, R129: the random byte reaches CXNN alone, and the clock the three timer instructions alone. -/
def Obligations.InputsReachOnlyTheirReaders : Prop :=
  ∀ (i : Instr) (s t : State), exec i s = .next t →
    ((∀ x nn, i ≠ .rnd x nn) → ∀ b, exec i { s with input := { s.input with rand := b } } =
      .next { t with input := { t.input with rand := b } }) ∧
    ((∀ x, i ≠ .ldFromDelay x ∧ i ≠ .ldDelay x ∧ i ≠ .ldSound x) →
      ∀ now, exec i { s with input := { s.input with now := now } } =
        .next { t with input := { t.input with now := now } })

/-- R100: no instruction reads the sound timer; it is seen only as the level `sound_active`, which is high exactly
while the timer's value is above 0. -/
def Obligations.SoundTimerIsOnlyAnOutput : Prop :=
  (∀ (i : Instr) (s t : State) (other : Timer), exec i s = .next t →
    ∃ left, exec i { s with sound := other } = .next { t with sound := left }) ∧
  (∀ (s : State) (now : Nat), (s.outputs now).soundActive = true ↔
    0 < (timerValue s.params.timeHz s.sound now).toNat)

/-! ## Control flow (40_control_flow.md) -/

/-- R65: 00EE takes pc from the top of the stack; an empty stack is fatal, recorded at the instruction's own address,
with pc as the fetch left it. -/
def Obligations.RetPopsOrUnderflows : Prop :=
  decode 0x00EE = .ok .ret ∧
  (∀ (s : State) (rest : List Word) (w : Word), s.stack = rest ++ [w] →
    exec .ret s = .next { s with pc := w, stack := rest }) ∧
  (∀ s : State, s.stack = [] →
    exec .ret s = .next { s with status := .halted (.stackUnderflow (s.pc - 2)) })

/-- R66: 1NNN puts NNN in pc and changes nothing else. -/
def Obligations.JpJumpsToItsAddress : Prop :=
  (∀ w, nib1 w = 0x1#4 → decode w = .ok (.jp (fieldNNN w))) ∧
  ∀ (nnn : Addr12) (s : State), exec (.jp nnn) s = .next { s with pc := BitVec.ofNat 16 nnn.toNat }

/-- R67: 2NNN pushes the advanced pc and jumps; a full stack is fatal before pc is changed. And its stack discipline:
N nested calls followed by N returns, each run after its fetch advance, leave the whole state as the first call's
fetch advance left it, so that pc is back after the call. -/
def Obligations.CallPushesOrOverflows : Prop :=
  (∀ w, nib1 w = 0x2#4 → decode w = .ok (.call (fieldNNN w))) ∧
  (∀ (nnn : Addr12) (s : State),
    (s.stack.length < s.params.stackDepth →
      exec (.call nnn) s = .next { s with stack := s.stack ++ [s.pc], pc := BitVec.ofNat 16 nnn.toNat }) ∧
    (s.stack.length = s.params.stackDepth →
      exec (.call nnn) s = .next { s with status := .halted (.stackOverflow (s.pc - 2)) })) ∧
  (∀ (targets : List Addr12) (s : State), targets ≠ [] →
    s.stack.length + targets.length ≤ s.params.stackDepth →
    execSeq (targets.map Instr.call ++ List.replicate targets.length Instr.ret) s = .next s.advancePc)

/-- R68, R69: the skips on an immediate add 2 to pc exactly when the register equals it, or does not, and change
nothing else. -/
def Obligations.ImmediateSkipsCompare : Prop :=
  (∀ w, nib1 w = 0x3#4 → decode w = .ok (.seByte (fieldX w) (fieldNN w))) ∧
  (∀ w, nib1 w = 0x4#4 → decode w = .ok (.sneByte (fieldX w) (fieldNN w))) ∧
  ∀ (x : Reg) (nn : Byte) (s : State),
    exec (.seByte x nn) s = .next { s with pc := if s.readV x = nn then s.pc + 2 else s.pc } ∧
    exec (.sneByte x nn) s = .next { s with pc := if s.readV x = nn then s.pc else s.pc + 2 }

/-- R70, R71: the skips on two registers, and the words of their classes that do not decode. -/
def Obligations.RegisterSkipsCompare : Prop :=
  (∀ w, nib1 w = 0x5#4 → nib4 w = 0#4 → decode w = .ok (.seReg (fieldX w) (fieldY w))) ∧
  (∀ w, nib1 w = 0x9#4 → nib4 w = 0#4 → decode w = .ok (.sneReg (fieldX w) (fieldY w))) ∧
  (∀ w, nib1 w = 0x5#4 ∨ nib1 w = 0x9#4 → nib4 w ≠ 0#4 → decode w = .error (.noPattern w)) ∧
  ∀ (x y : Reg) (s : State),
    exec (.seReg x y) s = .next { s with pc := if s.readV x = s.readV y then s.pc + 2 else s.pc } ∧
    exec (.sneReg x y) s = .next { s with pc := if s.readV x = s.readV y then s.pc else s.pc + 2 }

/-! ## Register and arithmetic instructions (41_alu.md) -/

/-- R73: 6XNN writes NN to its register and changes nothing else, VF only when it is that register. -/
def Obligations.LdByteWritesTheImmediate : Prop :=
  (∀ w, nib1 w = 0x6#4 → decode w = .ok (.ldByte (fieldX w) (fieldNN w))) ∧
  ∀ (x : Reg) (nn : Byte) (s : State), ∃ t, exec (.ldByte x nn) s = .next t ∧
    t.readV x = nn ∧ ({ regs := [x] } : Footprint).Keeps s t

/-- R74: 7XNN adds NN mod 256 and writes no flag; after 6XNN then 7XNN with v, Vx is (NN + v) mod 256. -/
def Obligations.AddByteWrapsWithoutAFlag : Prop :=
  (∀ w, nib1 w = 0x7#4 → decode w = .ok (.addByte (fieldX w) (fieldNN w))) ∧
  (∀ (x : Reg) (nn : Byte) (s : State), ∃ t, exec (.addByte x nn) s = .next t ∧
    (t.readV x).toNat = ((s.readV x).toNat + nn.toNat) % 256 ∧ ({ regs := [x] } : Footprint).Keeps s t) ∧
  (∀ (x : Reg) (nn v : Byte) (s : State), ∃ t u, exec (.ldByte x nn) s = .next t ∧
    exec (.addByte x v) t = .next u ∧ (u.readV x).toNat = (nn.toNat + v.toNat) % 256)

/-- R75 to R78: copy, OR, AND and XOR of two registers, bit by bit; VF is not written unless it is the destination. -/
def Obligations.CopyAndLogicWriteOneRegister : Prop :=
  (∀ w, nib1 w = 0x8#4 → nib4 w = 0x0#4 → decode w = .ok (.ldReg (fieldX w) (fieldY w))) ∧
  (∀ w, nib1 w = 0x8#4 → nib4 w = 0x1#4 → decode w = .ok (.orReg (fieldX w) (fieldY w))) ∧
  (∀ w, nib1 w = 0x8#4 → nib4 w = 0x2#4 → decode w = .ok (.andReg (fieldX w) (fieldY w))) ∧
  (∀ w, nib1 w = 0x8#4 → nib4 w = 0x3#4 → decode w = .ok (.xorReg (fieldX w) (fieldY w))) ∧
  ∀ (x y : Reg) (s : State),
    (∃ t, exec (.ldReg x y) s = .next t ∧ t.readV x = s.readV y ∧ ({ regs := [x] } : Footprint).Keeps s t) ∧
    (∃ t, exec (.orReg x y) s = .next t ∧ ({ regs := [x] } : Footprint).Keeps s t ∧
      ∀ k, k < 8 → (t.readV x).getLsbD k = ((s.readV x).getLsbD k || (s.readV y).getLsbD k)) ∧
    (∃ t, exec (.andReg x y) s = .next t ∧ ({ regs := [x] } : Footprint).Keeps s t ∧
      ∀ k, k < 8 → (t.readV x).getLsbD k = ((s.readV x).getLsbD k && (s.readV y).getLsbD k)) ∧
    (∃ t, exec (.xorReg x y) s = .next t ∧ ({ regs := [x] } : Footprint).Keeps s t ∧
      ∀ k, k < 8 → (t.readV x).getLsbD k = ((s.readV x).getLsbD k != (s.readV y).getLsbD k))

/-- R79: 8XY4 leaves the sum mod 256 and, written last, the carry in VF. -/
def Obligations.AddRegWritesSumAndCarry : Prop :=
  (∀ w, nib1 w = 0x8#4 → nib4 w = 0x4#4 → decode w = .ok (.addReg (fieldX w) (fieldY w))) ∧
  ∀ (x y : Reg) (s : State), ∃ t, exec (.addReg x y) s = .next t ∧
    (x ≠ VF → (t.readV x).toNat = ((s.readV x).toNat + (s.readV y).toNat) % 256) ∧
    t.readV VF = (if 255 < (s.readV x).toNat + (s.readV y).toNat then 1 else 0) ∧
    ({ regs := [x, VF] } : Footprint).Keeps s t

/-- R80, R82: the two subtractions mod 256, with VF 1 exactly when the minuend is strictly greater. -/
def Obligations.SubtractionsWriteDifferenceAndNoBorrow : Prop :=
  (∀ w, nib1 w = 0x8#4 → nib4 w = 0x5#4 → decode w = .ok (.subReg (fieldX w) (fieldY w))) ∧
  (∀ w, nib1 w = 0x8#4 → nib4 w = 0x7#4 → decode w = .ok (.subnReg (fieldX w) (fieldY w))) ∧
  ∀ (x y : Reg) (s : State),
    (∃ t, exec (.subReg x y) s = .next t ∧
      (x ≠ VF → (t.readV x).toNat = ((s.readV x).toNat + 256 - (s.readV y).toNat) % 256) ∧
      t.readV VF = (if (s.readV y).toNat < (s.readV x).toNat then 1 else 0) ∧
      ({ regs := [x, VF] } : Footprint).Keeps s t) ∧
    (∃ t, exec (.subnReg x y) s = .next t ∧
      (x ≠ VF → (t.readV x).toNat = ((s.readV y).toNat + 256 - (s.readV x).toNat) % 256) ∧
      t.readV VF = (if (s.readV x).toNat < (s.readV y).toNat then 1 else 0) ∧
      ({ regs := [x, VF] } : Footprint).Keeps s t)

/-- R81, R83: the shifts by one of Vx, with the bit shifted out in VF; the same for every Y, which is not read. -/
def Obligations.ShiftsMoveOneBitIntoTheFlag : Prop :=
  (∀ w, nib1 w = 0x8#4 → nib4 w = 0x6#4 → decode w = .ok (.shr (fieldX w) (fieldY w))) ∧
  (∀ w, nib1 w = 0x8#4 → nib4 w = 0xE#4 → decode w = .ok (.shl (fieldX w) (fieldY w))) ∧
  ∀ (x y : Reg) (s : State),
    (∃ t, exec (.shr x y) s = .next t ∧ (x ≠ VF → (t.readV x).toNat = (s.readV x).toNat / 2) ∧
      (t.readV VF).toNat = (s.readV x).toNat % 2 ∧ ({ regs := [x, VF] } : Footprint).Keeps s t) ∧
    (∃ t, exec (.shl x y) s = .next t ∧ (x ≠ VF → (t.readV x).toNat = (s.readV x).toNat * 2 % 256) ∧
      (t.readV VF).toNat = (s.readV x).toNat / 128 ∧ ({ regs := [x, VF] } : Footprint).Keeps s t)

/-- R84: CXNN writes the step's random byte masked by NN, whatever that byte is. -/
def Obligations.RndMasksTheRandomInput : Prop :=
  (∀ w, nib1 w = 0xC#4 → decode w = .ok (.rnd (fieldX w) (fieldNN w))) ∧
  ∀ (x : Reg) (nn : Byte) (s : State), ∃ t, exec (.rnd x nn) s = .next t ∧
    (∀ k, k < 8 → (t.readV x).getLsbD k = (s.input.rand.getLsbD k && nn.getLsbD k)) ∧
    ({ regs := [x] } : Footprint).Keeps s t

/-! ## Index register and memory instructions (42_index_memory.md, 20_memory.md) -/

/-- R85, R86, R88: the three writers of I, each mod 0x10000, with no flag. -/
def Obligations.IndexWritersWriteI : Prop :=
  (∀ w, nib1 w = 0xA#4 → decode w = .ok (.ldI (fieldNNN w))) ∧
  (∀ w, nib1 w = 0xF#4 → fieldNN w = 0x29#8 → decode w = .ok (.ldFont (fieldX w))) ∧
  (∀ w, nib1 w = 0xF#4 → fieldNN w = 0x1E#8 → decode w = .ok (.addI (fieldX w))) ∧
  (∀ (nnn : Addr12) (s : State), ∃ t, exec (.ldI nnn) s = .next t ∧ t.i.toNat = nnn.toNat ∧
    ({ i := true } : Footprint).Keeps s t) ∧
  (∀ (x : Reg) (s : State), ∃ t, exec (.ldFont x) s = .next t ∧
    t.i.toNat = (s.params.fontBase + (s.readV x).toNat * 5) % 0x10000 ∧ ({ i := true } : Footprint).Keeps s t) ∧
  (∀ (x : Reg) (s : State), ∃ t, exec (.addI x) s = .next t ∧
    t.i.toNat = (s.i.toNat + (s.readV x).toNat) % 0x10000 ∧ ({ i := true } : Footprint).Keeps s t)

/-- R43, R44: a data read out of range logs and gives nothing; a data write out of range or into the protected font
logs and writes nothing; every other access reads or writes its one byte and changes nothing else. -/
def Obligations.DataAccessesFollowTheBoundsPolicy : Prop :=
  ∀ (s : State) (a : Nat) (b : Byte),
    (s.params.memSize ≤ a →
      s.memRead a = (none, { s with diag := s.diag ++ [.outOfRangeRead a] }) ∧
      s.memWrite a b = { s with diag := s.diag ++ [.outOfRangeWrite a] }) ∧
    (a < s.params.memSize → ∃ c, s.byteAt a = some c ∧ s.memRead a = (some c, s)) ∧
    (a < s.params.memSize → s.params.fontWritable = false →
      s.params.fontBase ≤ a → a < s.params.fontBase + 80 →
      s.memWrite a b = { s with diag := s.diag ++ [.readOnlyWrite a] }) ∧
    (a < s.params.memSize →
      s.params.fontWritable = true ∨ ¬ (s.params.fontBase ≤ a ∧ a < s.params.fontBase + 80) →
      (s.memWrite a b).byteAt a = some b ∧ (∀ c, c ≠ a → (s.memWrite a b).byteAt c = s.byteAt c) ∧
      ∃ m, s.memWrite a b = { s with mem := m })

/-- R87: FX33 stores the three digits of its mode at I, I + 1, I + 2, each checked alone; a skipped byte keeps what it
held and logs its event. -/
def Obligations.LdBcdStoresThreeDigits : Prop :=
  (∀ w, nib1 w = 0xF#4 → fieldNN w = 0x33#8 → decode w = .ok (.ldBcd (fieldX w))) ∧
  ∀ (x : Reg) (s : State), ∃ t, exec (.ldBcd x) s = .next t ∧
    (∀ k, k < 3 → t.byteAt (s.ea k) =
      if writeReject s.params (s.ea k) = none then
        some (BitVec.ofNat 8 ((match s.params.bcdMode with
          | .decimal => [(s.readV x).toNat / 100, (s.readV x).toNat / 10 % 10, (s.readV x).toNat % 10]
          | .referenceDup => [(s.readV x).toNat / 100, (s.readV x).toNat % 10, (s.readV x).toNat % 10]).getD k 0))
      else s.byteAt (s.ea k)) ∧
    t.diag = s.diag ++ storeEvents s.params (s.ea 0) 3 ∧
    ({ mem := storedAddrs s 3, diag := true } : Footprint).Keeps s t

/-- R89: FX55 stores V0 to Vx at I to I + x, each checked alone; I is unchanged. -/
def Obligations.StoreRegsStoresEachRegister : Prop :=
  (∀ w, nib1 w = 0xF#4 → fieldNN w = 0x55#8 → decode w = .ok (.storeRegs (fieldX w))) ∧
  ∀ (x : Reg) (s : State), ∃ t, exec (.storeRegs x) s = .next t ∧
    (∀ k : Reg, k ≤ x → t.byteAt (s.ea k.val) =
      if writeReject s.params (s.ea k.val) = none then some (s.readV k) else s.byteAt (s.ea k.val)) ∧
    t.diag = s.diag ++ storeEvents s.params (s.ea 0) (x.val + 1) ∧
    ({ mem := storedAddrs s (x.val + 1), diag := true } : Footprint).Keeps s t

/-- R90: FX65 loads V0 to Vx from I to I + x; a byte out of range leaves its register and logs its event; no byte of
memory changes. -/
def Obligations.LoadRegsLoadsEachRegister : Prop :=
  (∀ w, nib1 w = 0xF#4 → fieldNN w = 0x65#8 → decode w = .ok (.loadRegs (fieldX w))) ∧
  ∀ (x : Reg) (s : State), ∃ t, exec (.loadRegs x) s = .next t ∧
    (∀ k : Reg, k ≤ x → t.readV k = (s.byteAt (s.ea k.val)).getD (s.readV k)) ∧
    (∀ k : Reg, ¬ k ≤ x → t.readV k = s.readV k) ∧
    t.diag = s.diag ++ readEvents s.params (s.ea 0) (x.val + 1) ∧
    ({ regs := regsUpTo x, diag := true } : Footprint).Keeps s t

/-- R49: what FX33 and FX55 store is what the very next fetch reads, at pc, at pc + 1 or at both, wherever the stored
bytes lie; a byte they do not store, or whose store is skipped, is fetched as it was. -/
def Obligations.StoredBytesAreFetchedNext : Prop :=
  ∀ (i : Instr) (x : Reg) (bytes : List Byte) (s t : State),
    (i = .ldBcd x ∧ bytes = bcdDigits s.params.bcdMode (s.readV x)) ∨
      (i = .storeRegs x ∧ bytes = (regsUpTo x).map s.readV) →
    s.pc.toNat + 1 < s.params.memSize → exec i s = .next t →
    ∃ b1 b2, byteAfterStore s bytes s.pc.toNat = some b1 ∧ byteAfterStore s bytes (s.pc.toNat + 1) = some b2 ∧
      t.fetch = .ok (s.pc, b1, b2, t.advancePc)

/-! ## Display (43_display.md) -/

/-- R93: 00E0 clears every pixel and changes nothing else, VF included. -/
def Obligations.ClsClearsTheSurface : Prop :=
  decode 0x00E0 = .ok .cls ∧
  ∀ s : State, ∃ t, exec .cls s = .next t ∧
    t.fb.length = s.params.displayW * s.params.displayH ∧ (∀ pixel ∈ t.fb, pixel = false) ∧
    ({ fb := true } : Footprint).Keeps s t

/-- R91, R94: DXYN, said pixel by pixel. On every pixel of the surface the new value is the old one XOR the clipped
sprite; VF is the collision bit, 1 exactly when a set sprite bit meets a set pixel; each visible row out of range logs
its event. -/
def Obligations.DrwXorsTheClippedSprite : Prop :=
  (∀ w, nib1 w = 0xD#4 → decode w = .ok (.drw (fieldX w) (fieldY w) (nib4 w))) ∧
  ∀ (x y : Reg) (n : Nibble) (s : State),
    1 ≤ s.params.displayW → 1 ≤ s.params.displayH → s.fb.length = s.params.displayW * s.params.displayH →
    ∃ t, exec (.drw x y n) s = .next t ∧
      t.fb.length = s.fb.length ∧
      (∀ px py, px < s.params.displayW → py < s.params.displayH →
        pixelAt s.params t.fb px py =
          (pixelAt s.params s.fb px py != spriteCovers s (s.readV x) (s.readV y) n px py)) ∧
      (t.readV VF = 0 ∨ t.readV VF = 1) ∧
      (t.readV VF = 1 ↔ ∃ px py, px < s.params.displayW ∧ py < s.params.displayH ∧
        spriteCovers s (s.readV x) (s.readV y) n px py = true ∧ pixelAt s.params s.fb px py = true) ∧
      t.diag = s.diag ++ readEvents s.params (s.ea 0) (visibleRows s.params (s.readV y) n) ∧
      ({ regs := [VF], fb := true, diag := true } : Footprint).Keeps s t

/-- R92: drawing the same sprite twice at the same coordinates gives the surface back, and the second draw collides
exactly when the first set a pixel that was 0 (the source's words; log 13 says why not R92's gloss on them).
Coordinates are the same when the first draw's flag did not change them. -/
def Obligations.DrawingTwiceRestoresTheSurface : Prop :=
  ∀ (x y : Reg) (n : Nibble) (s t : State),
    1 ≤ s.params.displayW → 1 ≤ s.params.displayH → s.fb.length = s.params.displayW * s.params.displayH →
    exec (.drw x y n) s = .next t → t.readV x = s.readV x → t.readV y = s.readV y →
    ∃ u, exec (.drw x y n) t = .next u ∧ u.fb = s.fb ∧
      (u.readV VF = 1 ↔ ∃ px py, px < s.params.displayW ∧ py < s.params.displayH ∧
        pixelAt s.params s.fb px py = false ∧ pixelAt s.params t.fb px py = true)

/-! ## Timers (44_timers.md) -/

/-- R99: a timer's value does not increase with time, equals the counter until the first decrement is due, is 0 once
the counter has run out, and two reads of one step agree. -/
def Obligations.TimerValueDecays : Prop :=
  (∀ (hz : Nat) (tm : Timer) (now : Nat), 1 ≤ hz →
    (∀ later, now ≤ later → (timerValue hz tm later).toNat ≤ (timerValue hz tm now).toNat) ∧
    (60 * (now - tm.startedAt) < hz → timerValue hz tm now = tm.counter) ∧
    (tm.counter.toNat * hz ≤ 60 * (now - tm.startedAt) → timerValue hz tm now = 0)) ∧
  (∀ s : State, s.delayRead.2.delayRead.1 = s.delayRead.1)

/-- R101, R98: FX07 writes the delay timer's value, the counter less one for each whole 1/60 s elapsed and never
below 0, and collapses the timer to inert exactly when that value is 0. -/
def Obligations.LdFromDelayReadsTheDecayedValue : Prop :=
  (∀ w, nib1 w = 0xF#4 → fieldNN w = 0x07#8 → decode w = .ok (.ldFromDelay (fieldX w))) ∧
  ∀ (x : Reg) (s : State), ∃ t, exec (.ldFromDelay x) s = .next t ∧
    (t.readV x).toNat = s.delay.counter.toNat - 60 * (s.input.now - s.delay.startedAt) / s.params.timeHz ∧
    t.delay = (if t.readV x = 0 then { s.delay with counter := 0 } else s.delay) ∧
    ({ regs := [x], delay := true } : Footprint).Keeps s t

/-- R102, R103, R97: FX15 and FX18 set their timer to Vx, started now, and change nothing else. -/
def Obligations.TimerWritesRestartTheTimer : Prop :=
  (∀ w, nib1 w = 0xF#4 → fieldNN w = 0x15#8 → decode w = .ok (.ldDelay (fieldX w))) ∧
  (∀ w, nib1 w = 0xF#4 → fieldNN w = 0x18#8 → decode w = .ok (.ldSound (fieldX w))) ∧
  ∀ (x : Reg) (s : State),
    exec (.ldDelay x) s = .next { s with delay := { counter := s.readV x, startedAt := s.input.now } } ∧
    exec (.ldSound x) s = .next { s with sound := { counter := s.readV x, startedAt := s.input.now } }

/-! ## Key stubs (45_input_stubs.md) -/

/-- R104, R105, R106: the key opcodes are recognised and change nothing beyond the fetch advance. -/
def Obligations.KeyOpcodesAreNoOps : Prop :=
  (∀ w, nib1 w = 0xE#4 → fieldNN w = 0x9E#8 → decode w = .ok (.skp (fieldX w))) ∧
  (∀ w, nib1 w = 0xE#4 → fieldNN w = 0xA1#8 → decode w = .ok (.sknp (fieldX w))) ∧
  (∀ w, nib1 w = 0xF#4 → fieldNN w = 0x0A#8 → decode w = .ok (.ldKey (fieldX w))) ∧
  ∀ (x : Reg) (s : State),
    exec (.skp x) s = .next s ∧ exec (.sknp x) s = .next s ∧ exec (.ldKey x) s = .next s
end

