-- ==== Sys2Proof/Laws/Decode.lean ====
section
/-! SUPPORT. The fields of the words the encoder builds: each field of a format reads back as it was put in. -/

namespace Sys2Proof

@[simp] theorem regOfNibble_nibbleOfReg (r : Reg) : regOfNibble (nibbleOfReg r) = r := by
  revert r; decide

@[simp] theorem nibbleOfReg_regOfNibble (n : Nibble) : nibbleOfReg (regOfNibble n) = n := by
  revert n; decide

/-! ## Words of two bytes -/

@[simp] theorem highByte_wordOfBytes (b1 b2 : Byte) : highByte (wordOfBytes b1 b2) = b1 := by
  apply BitVec.eq_of_getLsbD_eq; intro k hk
  have : 8 + k < 16 := by omega
  simp [highByte, wordOfBytes, hk, this]

@[simp] theorem fieldNN_wordOfBytes (b1 b2 : Byte) : fieldNN (wordOfBytes b1 b2) = b2 := by
  apply BitVec.eq_of_getLsbD_eq; intro k hk
  have : k < 16 := by omega
  simp [fieldNN, wordOfBytes, hk, this]

@[simp] theorem wordOfBytes_fields (w : Word) : wordOfBytes (highByte w) (fieldNN w) = w := by
  apply BitVec.eq_of_getLsbD_eq; intro k hk
  by_cases h : k < 8
  · simp [highByte, fieldNN, wordOfBytes, h, hk]
  · have h1 : k - 8 < 8 := by omega
    have h8 : 8 + (k - 8) = k := by omega
    simp [highByte, fieldNN, wordOfBytes, h, h1, h8, hk]

@[simp] theorem nib1_wordOfBytes (a b : Nibble) (c : Byte) : nib1 (wordOfBytes (byteOfNibbles a b) c) = a := by
  apply BitVec.eq_of_getLsbD_eq; intro k hk
  have h1 : 12 + k < 16 := by omega
  have h2 : c.getLsbD (12 + k) = false := BitVec.getLsbD_of_ge c _ (by omega)
  have h3 : 12 + k - 8 = 4 + k := by omega
  have h4 : 4 + k < 8 := by omega
  have h5 : ¬ (12 + k < 8) := by omega
  simp [nib1, wordOfBytes, byteOfNibbles, hk, h1, h2, h3, h4, h5]

@[simp] theorem nib2_wordOfBytes (a b : Nibble) (c : Byte) : nib2 (wordOfBytes (byteOfNibbles a b) c) = b := by
  apply BitVec.eq_of_getLsbD_eq; intro k hk
  have h1 : 8 + k < 16 := by omega
  have h2 : k < 8 := by omega
  simp [nib2, wordOfBytes, byteOfNibbles, hk, h1, h2]

@[simp] theorem nib3_wordOfBytes (b : Byte) (c d : Nibble) : nib3 (wordOfBytes b (byteOfNibbles c d)) = c := by
  apply BitVec.eq_of_getLsbD_eq; intro k hk
  have h1 : 4 + k < 8 := by omega
  have h2 : 4 + k < 16 := by omega
  simp [nib3, wordOfBytes, byteOfNibbles, hk, h1, h2]

@[simp] theorem nib4_wordOfBytes (b : Byte) (c d : Nibble) : nib4 (wordOfBytes b (byteOfNibbles c d)) = d := by
  apply BitVec.eq_of_getLsbD_eq; intro k hk
  have h1 : k < 8 := by omega
  have h2 : k < 16 := by omega
  simp [nib4, wordOfBytes, byteOfNibbles, hk, h1, h2]

/-! ## The formats (30_encoding.md R56) -/

@[simp] theorem nib1_encXNN (op : Nibble) (x : Reg) (nn : Byte) : nib1 (encXNN op x nn) = op := by simp [encXNN]
@[simp] theorem fieldX_encXNN (op : Nibble) (x : Reg) (nn : Byte) : fieldX (encXNN op x nn) = x := by
  simp [encXNN, fieldX]
@[simp] theorem fieldNN_encXNN (op : Nibble) (x : Reg) (nn : Byte) : fieldNN (encXNN op x nn) = nn := by simp [encXNN]

@[simp] theorem nib1_encXY (op : Nibble) (x y : Reg) (f : Nibble) : nib1 (encXY op x y f) = op := by
  simp [encXY]
@[simp] theorem fieldX_encXY (op : Nibble) (x y : Reg) (f : Nibble) : fieldX (encXY op x y f) = x := by
  simp [encXY, fieldX]
@[simp] theorem fieldY_encXY (op : Nibble) (x y : Reg) (f : Nibble) : fieldY (encXY op x y f) = y := by
  simp [encXY, fieldY]
@[simp] theorem nib4_encXY (op : Nibble) (x y : Reg) (f : Nibble) : nib4 (encXY op x y f) = f := by
  simp [encXY]

@[simp] theorem nib1_encA (op : Nibble) (nnn : Addr12) : nib1 (encA op nnn) = op := by
  apply BitVec.eq_of_getLsbD_eq; intro k hk
  have h1 : 12 + k < 16 := by omega
  simp [nib1, encA, hk, h1]
@[simp] theorem fieldNNN_encA (op : Nibble) (nnn : Addr12) : fieldNNN (encA op nnn) = nnn := by
  apply BitVec.eq_of_getLsbD_eq; intro k hk
  have h1 : k < 16 := by omega
  simp [fieldNNN, encA, hk, h1]

end Sys2Proof
end

