-- ==== Sys2Proof/Laws/Memory.lean ====
section
/-! SUPPORT. The laws of memory: read after write, and every operation keeps the canonical form and the bounds. -/

namespace Sys2Proof.Machine.Memory

variable (p : Params)

/-! ## Read after write -/

theorem read_insert (a b : Nat) (v : Byte) (m : Memory) :
    read p (insert a v m) b = if b = a then v else read p m b := by
  induction m with
  | nil => simp [insert, read]
  | cons c rest ih =>
    obtain ⟨c, w⟩ := c
    unfold insert
    split
    · simp [read]
    · split
      next h => subst h; by_cases hb : b = a <;> simp [read, hb]
      next h1 h2 =>
        by_cases hc : b = c
        · subst hc
          have : b ≠ a := fun e => h2 e.symm
          simp [read, this]
        · simp [read, hc, ih]

theorem read_erase (a b : Nat) (m : Memory) :
    read p (erase a m) b = if b = a then background p a else read p m b := by
  induction m with
  | nil =>
    by_cases h : b = a
    · simp [erase, read, h]
    · simp [erase, read, h]
  | cons c rest ih =>
    obtain ⟨c, w⟩ := c
    by_cases hc : c = a
    · subst hc
      have : erase c ((c, w) :: rest) = erase c rest := by simp [erase]
      rw [this, ih]
      by_cases hb : b = c <;> simp [read, hb]
    · have : erase a ((c, w) :: rest) = (c, w) :: erase a rest := by simp [erase, hc]
      rw [this]
      by_cases hb : b = c
      · subst hb; simp [read, hc]
      · simp [read, hb, ih]

/-- A write stores its byte and leaves every other address alone. -/
theorem read_write (m : Memory) (a b : Nat) (v : Byte) :
    read p (write p m a v) b = if b = a then v else read p m b := by
  unfold write
  split
  next h => rw [read_erase, h]
  next => exact read_insert p a b v m

@[simp] theorem read_write_same (m : Memory) (a : Nat) (v : Byte) : read p (write p m a v) a = v := by
  simp [read_write]

theorem read_write_other (m : Memory) {a b : Nat} (h : b ≠ a) (v : Byte) :
    read p (write p m a v) b = read p m b := by
  simp [read_write, h]

/-- A load puts its bytes at consecutive addresses and leaves every other address alone. -/
theorem read_load (bytes : List Byte) (m : Memory) (a b : Nat) :
    read p (load p m a bytes) b =
      if a ≤ b ∧ b < a + bytes.length then (bytes[b - a]?).getD 0 else read p m b := by
  induction bytes generalizing m a with
  | nil =>
    simp [load]
  | cons c rest ih =>
    rw [load, ih, read_write]
    by_cases h1 : b = a
    · subst h1; simp
    · by_cases h2 : a + 1 ≤ b ∧ b < a + 1 + rest.length
      · have h3 : a ≤ b ∧ b < a + (c :: rest).length := by simp; omega
        have h4 : b - a = (b - (a + 1)) + 1 := by omega
        rw [if_pos h2, if_pos h3, h4, List.getElem?_cons_succ]
      · have h3 : ¬ (a ≤ b ∧ b < a + (c :: rest).length) := by simp; omega
        rw [if_neg h2, if_neg h3, if_neg h1]

/-! ## The canonical form -/

theorem wfFrom_mono {lo hi : Nat} (h : lo ≤ hi) {m : Memory} (hm : wfFrom p hi m = true) : wfFrom p lo m = true := by
  cases m with
  | nil => rfl
  | cons c rest =>
    simp [wfFrom] at hm ⊢
    exact ⟨⟨by omega, hm.1.2⟩, hm.2⟩

theorem wfFrom_erase {lo : Nat} (a : Nat) {m : Memory} (hm : wfFrom p lo m = true) :
    wfFrom p lo (erase a m) = true := by
  induction m generalizing lo with
  | nil => rfl
  | cons c rest ih =>
    obtain ⟨c, w⟩ := c
    simp [wfFrom] at hm
    by_cases hc : c = a
    · have : erase a ((c, w) :: rest) = erase a rest := by simp [erase, hc]
      rw [this]
      exact wfFrom_mono p (by omega) (ih hm.2)
    · have : erase a ((c, w) :: rest) = (c, w) :: erase a rest := by simp [erase, hc]
      rw [this]
      simp [wfFrom]
      exact ⟨⟨hm.1.1, hm.1.2⟩, ih hm.2⟩

theorem wfFrom_insert {lo a : Nat} {v : Byte} (hlo : lo ≤ a) (hv : v ≠ background p a) {m : Memory}
    (hm : wfFrom p lo m = true) : wfFrom p lo (insert a v m) = true := by
  induction m generalizing lo with
  | nil => simp [insert, wfFrom, hlo, hv]
  | cons c rest ih =>
    obtain ⟨c, w⟩ := c
    simp [wfFrom] at hm
    unfold insert
    split
    · simp [wfFrom, hlo, hv]
      exact ⟨⟨by omega, hm.1.2⟩, hm.2⟩
    · split
      next h => subst h; simp [wfFrom, hlo, hv, hm.2]
      next h1 h2 =>
        simp [wfFrom]
        exact ⟨hm.1, ih (by omega) hm.2⟩

/-- A write keeps the canonical form. -/
theorem wf_write {m : Memory} (hm : wf p m = true) (a : Nat) (v : Byte) : wf p (write p m a v) = true := by
  unfold write
  split
  · exact wfFrom_erase p a hm
  next h => exact wfFrom_insert p (by omega) h hm

/-- A load keeps the canonical form. -/
theorem wf_load (bytes : List Byte) {m : Memory} (hm : wf p m = true) (a : Nat) : wf p (load p m a bytes) = true := by
  induction bytes generalizing m a with
  | nil => exact hm
  | cons c rest ih => exact ih (wf_write p hm a c) (a + 1)

@[simp] theorem wf_nil : wf p [] = true := rfl

/-! ## The bounds -/

theorem inBounds_erase {m : Memory} (hm : inBounds p m = true) (a : Nat) : inBounds p (erase a m) = true := by
  simp only [inBounds, List.all_eq_true] at hm ⊢
  exact fun c hc => hm c (List.mem_filter.mp hc).1

theorem mem_insert {a : Nat} {v : Byte} {m : Memory} {c : Host.Cell} (h : c ∈ insert a v m) :
    c = (a, v) ∨ c ∈ m := by
  induction m with
  | nil => simpa [insert] using h
  | cons d rest ih =>
    obtain ⟨d, w⟩ := d
    unfold insert at h
    split at h
    · simpa using h
    · split at h
      · simp at h ⊢; tauto
      · simp at h ⊢; tauto

theorem inBounds_insert {m : Memory} (hm : inBounds p m = true) {a : Nat} (ha : a < p.memSize) (v : Byte) :
    inBounds p (insert a v m) = true := by
  simp only [inBounds, List.all_eq_true] at hm ⊢
  intro c hc
  rcases mem_insert hc with rfl | hc
  · simpa using ha
  · exact hm c hc

/-- A write to an address that exists keeps the bounds. -/
theorem inBounds_write {m : Memory} (hm : inBounds p m = true) {a : Nat} (ha : a < p.memSize) (v : Byte) :
    inBounds p (write p m a v) = true := by
  unfold write
  split
  · exact inBounds_erase p hm a
  · exact inBounds_insert p hm ha v

/-- A load that fits keeps the bounds. -/
theorem inBounds_load (bytes : List Byte) {m : Memory} (hm : inBounds p m = true) {a : Nat}
    (ha : a + bytes.length ≤ p.memSize) : inBounds p (load p m a bytes) = true := by
  induction bytes generalizing m a with
  | nil => exact hm
  | cons c rest ih =>
    simp at ha
    exact ih (inBounds_write p hm (by omega) c) (by omega)

@[simp] theorem inBounds_nil : inBounds p [] = true := rfl

end Sys2Proof.Machine.Memory
end

