-- ==== Sys2Proof/Laws/State.lean ====
section
/-! SUPPORT. What each update of the state leaves in each field: one lemma per field per update. -/

namespace Sys2Proof.Machine

/-! ## writeV -/

@[simp] theorem State.writeV_v (r : Reg) (b : Byte) (s : State) : (s.writeV r b).v = s.v.set r b := rfl
@[simp] theorem State.writeV_i (r : Reg) (b : Byte) (s : State) : (s.writeV r b).i = s.i := rfl
@[simp] theorem State.writeV_pc (r : Reg) (b : Byte) (s : State) : (s.writeV r b).pc = s.pc := rfl
@[simp] theorem State.writeV_stack (r : Reg) (b : Byte) (s : State) : (s.writeV r b).stack = s.stack := rfl
@[simp] theorem State.writeV_delay (r : Reg) (b : Byte) (s : State) : (s.writeV r b).delay = s.delay := rfl
@[simp] theorem State.writeV_sound (r : Reg) (b : Byte) (s : State) : (s.writeV r b).sound = s.sound := rfl
@[simp] theorem State.writeV_fb (r : Reg) (b : Byte) (s : State) : (s.writeV r b).fb = s.fb := rfl
@[simp] theorem State.writeV_mem (r : Reg) (b : Byte) (s : State) : (s.writeV r b).mem = s.mem := rfl
@[simp] theorem State.writeV_status (r : Reg) (b : Byte) (s : State) : (s.writeV r b).status = s.status := rfl
@[simp] theorem State.writeV_diag (r : Reg) (b : Byte) (s : State) : (s.writeV r b).diag = s.diag := rfl
@[simp] theorem State.writeV_params (r : Reg) (b : Byte) (s : State) : (s.writeV r b).params = s.params := rfl
@[simp] theorem State.writeV_input (r : Reg) (b : Byte) (s : State) : (s.writeV r b).input = s.input := rfl
@[simp] theorem State.writeV_inputs (r : Reg) (b : Byte) (s : State) : (s.writeV r b).inputs = s.inputs := rfl
@[simp] theorem State.writeV_tick (r : Reg) (b : Byte) (s : State) : (s.writeV r b).tick = s.tick := rfl

/-! ## writeI -/

@[simp] theorem State.writeI_v (w : Word) (s : State) : (s.writeI w).v = s.v := rfl
@[simp] theorem State.writeI_i (w : Word) (s : State) : (s.writeI w).i = w := rfl
@[simp] theorem State.writeI_pc (w : Word) (s : State) : (s.writeI w).pc = s.pc := rfl
@[simp] theorem State.writeI_stack (w : Word) (s : State) : (s.writeI w).stack = s.stack := rfl
@[simp] theorem State.writeI_delay (w : Word) (s : State) : (s.writeI w).delay = s.delay := rfl
@[simp] theorem State.writeI_sound (w : Word) (s : State) : (s.writeI w).sound = s.sound := rfl
@[simp] theorem State.writeI_fb (w : Word) (s : State) : (s.writeI w).fb = s.fb := rfl
@[simp] theorem State.writeI_mem (w : Word) (s : State) : (s.writeI w).mem = s.mem := rfl
@[simp] theorem State.writeI_status (w : Word) (s : State) : (s.writeI w).status = s.status := rfl
@[simp] theorem State.writeI_diag (w : Word) (s : State) : (s.writeI w).diag = s.diag := rfl
@[simp] theorem State.writeI_params (w : Word) (s : State) : (s.writeI w).params = s.params := rfl
@[simp] theorem State.writeI_input (w : Word) (s : State) : (s.writeI w).input = s.input := rfl
@[simp] theorem State.writeI_inputs (w : Word) (s : State) : (s.writeI w).inputs = s.inputs := rfl
@[simp] theorem State.writeI_tick (w : Word) (s : State) : (s.writeI w).tick = s.tick := rfl

/-! ## advancePc -/

@[simp] theorem State.advancePc_v (s : State) : s.advancePc.v = s.v := rfl
@[simp] theorem State.advancePc_i (s : State) : s.advancePc.i = s.i := rfl
@[simp] theorem State.advancePc_pc (s : State) : s.advancePc.pc = s.pc + 2 := rfl
@[simp] theorem State.advancePc_stack (s : State) : s.advancePc.stack = s.stack := rfl
@[simp] theorem State.advancePc_delay (s : State) : s.advancePc.delay = s.delay := rfl
@[simp] theorem State.advancePc_sound (s : State) : s.advancePc.sound = s.sound := rfl
@[simp] theorem State.advancePc_fb (s : State) : s.advancePc.fb = s.fb := rfl
@[simp] theorem State.advancePc_mem (s : State) : s.advancePc.mem = s.mem := rfl
@[simp] theorem State.advancePc_status (s : State) : s.advancePc.status = s.status := rfl
@[simp] theorem State.advancePc_diag (s : State) : s.advancePc.diag = s.diag := rfl
@[simp] theorem State.advancePc_params (s : State) : s.advancePc.params = s.params := rfl
@[simp] theorem State.advancePc_input (s : State) : s.advancePc.input = s.input := rfl
@[simp] theorem State.advancePc_inputs (s : State) : s.advancePc.inputs = s.inputs := rfl
@[simp] theorem State.advancePc_tick (s : State) : s.advancePc.tick = s.tick := rfl

/-! ## jump -/

@[simp] theorem State.jump_v (w : Word) (s : State) : (s.jump w).v = s.v := rfl
@[simp] theorem State.jump_i (w : Word) (s : State) : (s.jump w).i = s.i := rfl
@[simp] theorem State.jump_pc (w : Word) (s : State) : (s.jump w).pc = w := rfl
@[simp] theorem State.jump_stack (w : Word) (s : State) : (s.jump w).stack = s.stack := rfl
@[simp] theorem State.jump_delay (w : Word) (s : State) : (s.jump w).delay = s.delay := rfl
@[simp] theorem State.jump_sound (w : Word) (s : State) : (s.jump w).sound = s.sound := rfl
@[simp] theorem State.jump_fb (w : Word) (s : State) : (s.jump w).fb = s.fb := rfl
@[simp] theorem State.jump_mem (w : Word) (s : State) : (s.jump w).mem = s.mem := rfl
@[simp] theorem State.jump_status (w : Word) (s : State) : (s.jump w).status = s.status := rfl
@[simp] theorem State.jump_diag (w : Word) (s : State) : (s.jump w).diag = s.diag := rfl
@[simp] theorem State.jump_params (w : Word) (s : State) : (s.jump w).params = s.params := rfl
@[simp] theorem State.jump_input (w : Word) (s : State) : (s.jump w).input = s.input := rfl
@[simp] theorem State.jump_inputs (w : Word) (s : State) : (s.jump w).inputs = s.inputs := rfl
@[simp] theorem State.jump_tick (w : Word) (s : State) : (s.jump w).tick = s.tick := rfl

/-! ## log -/

@[simp] theorem State.log_v (e : DiagEvent) (s : State) : (s.log e).v = s.v := rfl
@[simp] theorem State.log_i (e : DiagEvent) (s : State) : (s.log e).i = s.i := rfl
@[simp] theorem State.log_pc (e : DiagEvent) (s : State) : (s.log e).pc = s.pc := rfl
@[simp] theorem State.log_stack (e : DiagEvent) (s : State) : (s.log e).stack = s.stack := rfl
@[simp] theorem State.log_delay (e : DiagEvent) (s : State) : (s.log e).delay = s.delay := rfl
@[simp] theorem State.log_sound (e : DiagEvent) (s : State) : (s.log e).sound = s.sound := rfl
@[simp] theorem State.log_fb (e : DiagEvent) (s : State) : (s.log e).fb = s.fb := rfl
@[simp] theorem State.log_mem (e : DiagEvent) (s : State) : (s.log e).mem = s.mem := rfl
@[simp] theorem State.log_status (e : DiagEvent) (s : State) : (s.log e).status = s.status := rfl
@[simp] theorem State.log_diag (e : DiagEvent) (s : State) : (s.log e).diag = s.diag ++ [e] := rfl
@[simp] theorem State.log_params (e : DiagEvent) (s : State) : (s.log e).params = s.params := rfl
@[simp] theorem State.log_input (e : DiagEvent) (s : State) : (s.log e).input = s.input := rfl
@[simp] theorem State.log_inputs (e : DiagEvent) (s : State) : (s.log e).inputs = s.inputs := rfl
@[simp] theorem State.log_tick (e : DiagEvent) (s : State) : (s.log e).tick = s.tick := rfl

/-! ## raiseFatal -/

@[simp] theorem State.raiseFatal_v (r : HaltReason) (s : State) : (s.raiseFatal r).v = s.v := rfl
@[simp] theorem State.raiseFatal_i (r : HaltReason) (s : State) : (s.raiseFatal r).i = s.i := rfl
@[simp] theorem State.raiseFatal_pc (r : HaltReason) (s : State) : (s.raiseFatal r).pc = s.pc := rfl
@[simp] theorem State.raiseFatal_stack (r : HaltReason) (s : State) : (s.raiseFatal r).stack = s.stack := rfl
@[simp] theorem State.raiseFatal_delay (r : HaltReason) (s : State) : (s.raiseFatal r).delay = s.delay := rfl
@[simp] theorem State.raiseFatal_sound (r : HaltReason) (s : State) : (s.raiseFatal r).sound = s.sound := rfl
@[simp] theorem State.raiseFatal_fb (r : HaltReason) (s : State) : (s.raiseFatal r).fb = s.fb := rfl
@[simp] theorem State.raiseFatal_mem (r : HaltReason) (s : State) : (s.raiseFatal r).mem = s.mem := rfl
@[simp] theorem State.raiseFatal_status (r : HaltReason) (s : State) : (s.raiseFatal r).status = .halted r := rfl
@[simp] theorem State.raiseFatal_diag (r : HaltReason) (s : State) : (s.raiseFatal r).diag = s.diag := rfl
@[simp] theorem State.raiseFatal_params (r : HaltReason) (s : State) : (s.raiseFatal r).params = s.params := rfl
@[simp] theorem State.raiseFatal_input (r : HaltReason) (s : State) : (s.raiseFatal r).input = s.input := rfl
@[simp] theorem State.raiseFatal_inputs (r : HaltReason) (s : State) : (s.raiseFatal r).inputs = s.inputs := rfl
@[simp] theorem State.raiseFatal_tick (r : HaltReason) (s : State) : (s.raiseFatal r).tick = s.tick := rfl

/-! ## sample -/

@[simp] theorem State.sample_v (inp : StepInput) (s : State) : (s.sample inp).v = s.v := rfl
@[simp] theorem State.sample_i (inp : StepInput) (s : State) : (s.sample inp).i = s.i := rfl
@[simp] theorem State.sample_pc (inp : StepInput) (s : State) : (s.sample inp).pc = s.pc := rfl
@[simp] theorem State.sample_stack (inp : StepInput) (s : State) : (s.sample inp).stack = s.stack := rfl
@[simp] theorem State.sample_delay (inp : StepInput) (s : State) : (s.sample inp).delay = s.delay := rfl
@[simp] theorem State.sample_sound (inp : StepInput) (s : State) : (s.sample inp).sound = s.sound := rfl
@[simp] theorem State.sample_fb (inp : StepInput) (s : State) : (s.sample inp).fb = s.fb := rfl
@[simp] theorem State.sample_mem (inp : StepInput) (s : State) : (s.sample inp).mem = s.mem := rfl
@[simp] theorem State.sample_status (inp : StepInput) (s : State) : (s.sample inp).status = s.status := rfl
@[simp] theorem State.sample_diag (inp : StepInput) (s : State) : (s.sample inp).diag = s.diag := rfl
@[simp] theorem State.sample_params (inp : StepInput) (s : State) : (s.sample inp).params = s.params := rfl
@[simp] theorem State.sample_input (inp : StepInput) (s : State) : (s.sample inp).input = inp := rfl
@[simp] theorem State.sample_inputs (inp : StepInput) (s : State) : (s.sample inp).inputs = s.inputs := rfl
@[simp] theorem State.sample_tick (inp : StepInput) (s : State) : (s.sample inp).tick = s.tick := rfl

/-! ## takeInput -/

@[simp] theorem State.takeInput_v (s : State) : s.takeInput.v = s.v := rfl
@[simp] theorem State.takeInput_i (s : State) : s.takeInput.i = s.i := rfl
@[simp] theorem State.takeInput_pc (s : State) : s.takeInput.pc = s.pc := rfl
@[simp] theorem State.takeInput_stack (s : State) : s.takeInput.stack = s.stack := rfl
@[simp] theorem State.takeInput_delay (s : State) : s.takeInput.delay = s.delay := rfl
@[simp] theorem State.takeInput_sound (s : State) : s.takeInput.sound = s.sound := rfl
@[simp] theorem State.takeInput_fb (s : State) : s.takeInput.fb = s.fb := rfl
@[simp] theorem State.takeInput_mem (s : State) : s.takeInput.mem = s.mem := rfl
@[simp] theorem State.takeInput_status (s : State) : s.takeInput.status = s.status := rfl
@[simp] theorem State.takeInput_diag (s : State) : s.takeInput.diag = s.diag := rfl
@[simp] theorem State.takeInput_params (s : State) : s.takeInput.params = s.params := rfl
@[simp] theorem State.takeInput_input (s : State) : s.takeInput.input = s.input := rfl
@[simp] theorem State.takeInput_inputs (s : State) : s.takeInput.inputs = s.inputs.tail := rfl
@[simp] theorem State.takeInput_tick (s : State) : s.takeInput.tick = s.tick + 1 := rfl

/-! ## Reading registers -/

@[simp] theorem readV_writeV_same (r : Reg) (b : Byte) (s : State) : (s.writeV r b).readV r = b := by
  simp [State.readV]

theorem readV_writeV_other {r q : Reg} (h : q ≠ r) (b : Byte) (s : State) : (s.writeV r b).readV q = s.readV q := by
  have hne : r.val ≠ q.val := fun e => h (Fin.ext e.symm)
  simp [State.readV, hne]

/-- What any register holds after one is written. -/
theorem readV_writeV (r q : Reg) (b : Byte) (s : State) :
    (s.writeV r b).readV q = if q = r then b else s.readV q := by
  split
  next h => subst h; simp
  next h => exact readV_writeV_other h b s

/-- A register reads from the register file alone. -/
theorem readV_congr {s t : State} (h : t.v = s.v) (r : Reg) : t.readV r = s.readV r := by
  simp [State.readV, h]

@[simp] theorem readV_writeI (w : Word) (s : State) (q : Reg) : (s.writeI w).readV q = s.readV q := rfl
@[simp] theorem readV_advancePc (s : State) (q : Reg) : s.advancePc.readV q = s.readV q := rfl
@[simp] theorem readV_jump (w : Word) (s : State) (q : Reg) : (s.jump w).readV q = s.readV q := rfl
@[simp] theorem readV_log (e : DiagEvent) (s : State) (q : Reg) : (s.log e).readV q = s.readV q := rfl
@[simp] theorem readV_raiseFatal (r : HaltReason) (s : State) (q : Reg) : (s.raiseFatal r).readV q = s.readV q := rfl
@[simp] theorem readV_sample (inp : StepInput) (s : State) (q : Reg) : (s.sample inp).readV q = s.readV q := rfl
@[simp] theorem readV_takeInput (s : State) (q : Reg) : s.takeInput.readV q = s.readV q := rfl

/-! ## Reading memory -/

/-- A byte reads from memory and the parameters alone. -/
theorem byteAt_congr {s t : State} (hm : t.mem = s.mem) (hp : t.params = s.params) (a : Nat) :
    t.byteAt a = s.byteAt a := by
  simp [State.byteAt, hm, hp]

@[simp] theorem byteAt_writeV (r : Reg) (b : Byte) (s : State) (a : Nat) : (s.writeV r b).byteAt a = s.byteAt a := rfl
@[simp] theorem byteAt_writeI (w : Word) (s : State) (a : Nat) : (s.writeI w).byteAt a = s.byteAt a := rfl
@[simp] theorem byteAt_advancePc (s : State) (a : Nat) : s.advancePc.byteAt a = s.byteAt a := rfl
@[simp] theorem byteAt_jump (w : Word) (s : State) (a : Nat) : (s.jump w).byteAt a = s.byteAt a := rfl
@[simp] theorem byteAt_log (e : DiagEvent) (s : State) (a : Nat) : (s.log e).byteAt a = s.byteAt a := rfl
@[simp] theorem byteAt_raiseFatal (r : HaltReason) (s : State) (a : Nat) : (s.raiseFatal r).byteAt a = s.byteAt a := rfl
@[simp] theorem byteAt_sample (inp : StepInput) (s : State) (a : Nat) : (s.sample inp).byteAt a = s.byteAt a := rfl
@[simp] theorem byteAt_takeInput (s : State) (a : Nat) : s.takeInput.byteAt a = s.byteAt a := rfl

/-! ## skipIf: pc alone -/

@[simp] theorem State.skipIf_v (c : Bool) (s : State) : (s.skipIf c).v = s.v := by cases c <;> rfl
@[simp] theorem State.skipIf_i (c : Bool) (s : State) : (s.skipIf c).i = s.i := by cases c <;> rfl
@[simp] theorem State.skipIf_pc (c : Bool) (s : State) : (s.skipIf c).pc = if c then s.pc + 2 else s.pc := by
  cases c <;> rfl
@[simp] theorem State.skipIf_stack (c : Bool) (s : State) : (s.skipIf c).stack = s.stack := by cases c <;> rfl
@[simp] theorem State.skipIf_delay (c : Bool) (s : State) : (s.skipIf c).delay = s.delay := by cases c <;> rfl
@[simp] theorem State.skipIf_sound (c : Bool) (s : State) : (s.skipIf c).sound = s.sound := by cases c <;> rfl
@[simp] theorem State.skipIf_fb (c : Bool) (s : State) : (s.skipIf c).fb = s.fb := by cases c <;> rfl
@[simp] theorem State.skipIf_mem (c : Bool) (s : State) : (s.skipIf c).mem = s.mem := by cases c <;> rfl
@[simp] theorem State.skipIf_status (c : Bool) (s : State) : (s.skipIf c).status = s.status := by cases c <;> rfl
@[simp] theorem State.skipIf_diag (c : Bool) (s : State) : (s.skipIf c).diag = s.diag := by cases c <;> rfl
@[simp] theorem State.skipIf_params (c : Bool) (s : State) : (s.skipIf c).params = s.params := by cases c <;> rfl
@[simp] theorem State.skipIf_input (c : Bool) (s : State) : (s.skipIf c).input = s.input := by cases c <;> rfl
@[simp] theorem State.skipIf_inputs (c : Bool) (s : State) : (s.skipIf c).inputs = s.inputs := by cases c <;> rfl
@[simp] theorem State.skipIf_tick (c : Bool) (s : State) : (s.skipIf c).tick = s.tick := by cases c <;> rfl

end Sys2Proof.Machine
end

