-- ==== Sys2Proof/Laws/Ops.lean ====
section
/-! SUPPORT. What each shared operation can do, said once: callers cite these and do not unfold the operation. -/

namespace Sys2Proof.Machine

open Sys2Proof.Safety

/-! ## Flags and operands -/

/-- A flag value is 0 or 1 (10_state.md R17). -/
theorem flagByte_zero_or_one (b : Bool) : flagByte b = 0 ∨ flagByte b = 1 := by
  cases b <;> simp [flagByte]

theorem carryFlag_eq (a b : Byte) : carryFlag a b = flagByte (decide (255 < a.toNat + b.toNat)) := by
  have ha := a.isLt
  have hb := b.isLt
  unfold carryFlag flagByte
  by_cases h : 255 < a.toNat + b.toNat
  · have : (a.toNat + b.toNat) / 256 = 1 := by omega
    simp [h, this]
  · have : (a.toNat + b.toNat) / 256 = 0 := by omega
    simp [h, this]

theorem shiftRightFlag_eq (a : Byte) : shiftRightFlag a = flagByte (a.getLsbD 0) := by
  revert a; decide

theorem shiftLeftFlag_eq (a : Byte) : shiftLeftFlag a = flagByte (a.getLsbD 7) := by
  revert a; decide

@[simp] theorem mem_allRegs (r : Reg) : r ∈ allRegs := by revert r; decide

/-- FX55 and FX65 act on exactly the registers 0 to `x`. -/
theorem mem_regsUpTo (x r : Reg) : r ∈ regsUpTo x ↔ r ≤ x := by revert x r; decide

@[simp] theorem length_regsUpTo (x : Reg) : (regsUpTo x).length = x.val + 1 := by revert x; decide

/-- The register at place `k` of them is register `k`. -/
theorem getElem?_regsUpTo (x : Reg) (k : Reg) (h : k ≤ x) : (regsUpTo x)[k.val]? = some k := by
  revert x k; decide

@[simp] theorem length_bcdDigits (mode : BcdMode) (b : Byte) : (bcdDigits mode b).length = 3 := by
  cases mode <;> rfl

/-! ## The stack -/

/-- A push fails exactly on a full stack. -/
theorem push_cases (w : Word) (s : State) :
    (s.stack.length = s.params.stackDepth ∧ s.push w = .error (.stackOverflow s.instrAddr)) ∨
    (s.stack.length ≠ s.params.stackDepth ∧ s.push w = .ok { s with stack := s.stack ++ [w] }) := by
  unfold State.push
  split
  next h => exact .inl ⟨h, rfl⟩
  next h => exact .inr ⟨h, rfl⟩

@[simp] theorem pop_append (s : State) (rest : List Word) (w : Word) (h : s.stack = rest ++ [w]) :
    s.pop = .ok (w, { s with stack := rest }) := by
  simp [State.pop, h]

/-- A pop fails exactly on an empty stack; otherwise it takes the last entry. -/
theorem pop_cases (s : State) :
    (s.stack = [] ∧ s.pop = .error (.stackUnderflow s.instrAddr)) ∨
    (∃ rest w, s.stack = rest ++ [w] ∧ s.pop = .ok (w, { s with stack := rest })) := by
  rcases List.eq_nil_or_concat s.stack with h | ⟨rest, w, h⟩
  · exact .inl ⟨h, by simp [State.pop, h]⟩
  · have h' : s.stack = rest ++ [w] := by simpa using h
    exact .inr ⟨rest, w, h', pop_append s rest w h'⟩

/-! ## Memory -/

/-- A byte is there exactly when the address is. -/
theorem byteAt_eq_none_iff (s : State) (a : Nat) : s.byteAt a = none ↔ s.params.memSize ≤ a := by
  unfold State.byteAt
  split <;> simp <;> omega

/-- A data read logs at most an event and gives the byte the address holds. -/
theorem memRead_eq (a : Nat) (s : State) :
    s.memRead a = (s.byteAt a, { s with diag := s.diag ++ (readReject s.params a).toList }) := by
  unfold State.memRead readReject State.byteAt
  by_cases h : s.params.memSize ≤ a
  · have h' : ¬ a < s.params.memSize := by omega
    simp [h, h', State.log]
  · have h' : a < s.params.memSize := by omega
    simp [h, h']

/-- A data write changes memory and the diagnostic output alone. -/
theorem memWrite_eq (a : Nat) (b : Byte) (s : State) :
    s.memWrite a b = { s with
      mem := if writeReject s.params a = none then Memory.write s.params s.mem a b else s.mem
      diag := s.diag ++ (writeReject s.params a).toList } := by
  unfold State.memWrite
  cases h : writeReject s.params a <;> simp [State.log]

/-- A write is accepted only at an address that exists. -/
theorem lt_of_writeReject_none {p : Params} {a : Nat} (h : writeReject p a = none) : a < p.memSize := by
  unfold writeReject at h
  split at h
  · cases h
  · omega

/-- A write is accepted in the font region only where the font is writable. -/
theorem notFont_of_writeReject_none {p : Params} {a : Nat} (hw : p.fontWritable = false)
    (h : writeReject p a = none) : inFont p a = false := by
  unfold writeReject at h
  split at h
  · cases h
  · cases hf : inFont p a <;> simp_all

/-- What every address holds after a write: the byte, where it is accepted, and what it held elsewhere. -/
theorem byteAt_memWrite (a c : Nat) (b : Byte) (s : State) :
    (s.memWrite a b).byteAt c =
      if c = a ∧ writeReject s.params a = none then some b else s.byteAt c := by
  rw [memWrite_eq]
  by_cases hr : writeReject s.params a = none
  · have ha := lt_of_writeReject_none hr
    by_cases hc : c = a
    · subst hc; simp [State.byteAt, hr, ha]
    · simp [State.byteAt, hr, hc, Memory.read_write_other _ _ hc]
  · simp [State.byteAt, hr]

theorem storeEvents_succ (p : Params) (a n : Nat) :
    storeEvents p a (n + 1) = (writeReject p a).toList ++ storeEvents p (a + 1) n := by
  unfold storeEvents
  rw [List.range_succ_eq_map, List.filterMap_cons, List.filterMap_map]
  have hf : ((fun k => writeReject p (a + k)) ∘ Nat.succ) = fun k => writeReject p (a + 1 + k) := by
    funext k; simp [Nat.add_comm, Nat.add_left_comm]
  rw [hf]
  cases h : writeReject p a <;> simp

/-- A store of several bytes changes memory and the diagnostic output alone. -/
theorem storeBytes_frame (bytes : List Byte) (a : Nat) (s : State) :
    ∃ m, s.storeBytes a bytes =
      { s with mem := m, diag := s.diag ++ storeEvents s.params a bytes.length } := by
  induction bytes generalizing a s with
  | nil => exact ⟨s.mem, by simp [State.storeBytes, storeEvents]⟩
  | cons b rest ih =>
    obtain ⟨m, hm⟩ := ih (a + 1) (s.memWrite a b)
    refine ⟨m, ?_⟩
    rw [State.storeBytes, hm, memWrite_eq]
    simp [storeEvents_succ, List.append_assoc]

/-- What every address holds after a store of several bytes: each byte lands where it is accepted. -/
theorem byteAt_storeBytes (bytes : List Byte) (a c : Nat) (s : State) :
    (s.storeBytes a bytes).byteAt c =
      if a ≤ c ∧ c < a + bytes.length ∧ writeReject s.params c = none then bytes[c - a]? else s.byteAt c := by
  induction bytes generalizing a s with
  | nil =>
    rw [State.storeBytes, if_neg]
    simp; omega
  | cons b rest ih =>
    have hp : (s.memWrite a b).params = s.params := by rw [memWrite_eq]
    rw [State.storeBytes, ih, hp, byteAt_memWrite]
    by_cases hr : writeReject s.params c = none
    · by_cases hc : c = a
      · subst hc
        simp [hr]
      · by_cases h : a + 1 ≤ c ∧ c < a + 1 + rest.length
        · have h' : a ≤ c ∧ c < a + (b :: rest).length := by simp; omega
          have hk : c - a = (c - (a + 1)) + 1 := by omega
          rw [if_pos ⟨h.1, h.2, hr⟩, if_pos ⟨h'.1, h'.2, hr⟩, hk, List.getElem?_cons_succ]
        · have h' : ¬ (a ≤ c ∧ c < a + (b :: rest).length) := by simp; omega
          rw [if_neg (by tauto), if_neg (by tauto), if_neg (by tauto)]
    · have h1 : ¬ (c = a ∧ writeReject s.params a = none) := by rintro ⟨rfl, h⟩; exact hr h
      rw [if_neg (by tauto), if_neg h1, if_neg (by tauto)]

/-- A store of several bytes keeps memory canonical and within its bounds. -/
theorem storeBytes_keeps_memory (bytes : List Byte) (a : Nat) (s : State)
    (hw : Memory.wf s.params s.mem = true) (hb : Memory.inBounds s.params s.mem = true) :
    Memory.wf s.params (s.storeBytes a bytes).mem = true ∧
    Memory.inBounds s.params (s.storeBytes a bytes).mem = true := by
  induction bytes generalizing a s with
  | nil => exact ⟨hw, hb⟩
  | cons b rest ih =>
    have hp : (s.memWrite a b).params = s.params := by rw [memWrite_eq]
    have hm : Memory.wf s.params (s.memWrite a b).mem = true ∧
        Memory.inBounds s.params (s.memWrite a b).mem = true := by
      rw [memWrite_eq]
      split
      next h => exact ⟨Memory.wf_write _ hw _ _, Memory.inBounds_write _ hb (lt_of_writeReject_none h) _⟩
      next => exact ⟨hw, hb⟩
    rw [State.storeBytes]
    simpa [hp] using ih (a + 1) (s.memWrite a b) (by simpa [hp] using hm.1) (by simpa [hp] using hm.2)

theorem readEvents_succ (p : Params) (a n : Nat) :
    readEvents p a (n + 1) = (readReject p a).toList ++ readEvents p (a + 1) n := by
  unfold readEvents
  rw [List.range_succ_eq_map, List.filterMap_cons, List.filterMap_map]
  have hf : ((fun k => readReject p (a + k)) ∘ Nat.succ) = fun k => readReject p (a + 1 + k) := by
    funext k; simp [Nat.add_comm, Nat.add_left_comm]
  rw [hf]
  cases h : readReject p a <;> simp

/-- One step of a load: the register takes the byte, if there is one. -/
theorem loadBytes_cons (a : Nat) (r : Reg) (rest : List Reg) (s : State) :
    s.loadBytes a (r :: rest) =
      State.loadBytes (a + 1) rest
        (State.writeV r ((s.byteAt a).getD (s.readV r)) { s with diag := s.diag ++ (readReject s.params a).toList }) := by
  rw [State.loadBytes, memRead_eq]
  cases h : s.byteAt a with
  | some b => simp
  | none =>
    have : s.v.set r (s.readV r) = s.v := by simp [State.readV]
    simp [State.writeV, this]

/-- A load changes the register file and the diagnostic output alone. -/
theorem loadBytes_frame (rs : List Reg) (a : Nat) (s : State) :
    ∃ v, s.loadBytes a rs = { s with v := v, diag := s.diag ++ readEvents s.params a rs.length } := by
  induction rs generalizing a s with
  | nil => exact ⟨s.v, by simp [State.loadBytes, readEvents]⟩
  | cons r rest ih =>
    rw [loadBytes_cons]
    obtain ⟨v, hv⟩ := ih (a + 1)
      (State.writeV r ((s.byteAt a).getD (s.readV r)) { s with diag := s.diag ++ (readReject s.params a).toList })
    refine ⟨v, ?_⟩
    rw [hv]
    simp [State.writeV, readEvents_succ, List.append_assoc]

/-- A load leaves the registers it does not list. -/
theorem readV_loadBytes_of_not_mem (rs : List Reg) (a : Nat) (s : State) {r : Reg} (h : r ∉ rs) :
    (s.loadBytes a rs).readV r = s.readV r := by
  induction rs generalizing a s with
  | nil => rfl
  | cons q rest ih =>
    rw [loadBytes_cons, ih _ _ (fun hm => h (List.mem_cons_of_mem _ hm)), readV_writeV_other]
    · rfl
    · rintro rfl; exact h List.mem_cons_self

/-- A load puts the byte of each address that exists into its register. -/
theorem readV_loadBytes (rs : List Reg) (a k : Nat) (s : State) {r : Reg} (hd : rs.Nodup) (hk : rs[k]? = some r) :
    (s.loadBytes a rs).readV r = (s.byteAt (a + k)).getD (s.readV r) := by
  induction rs generalizing a k s with
  | nil => simp at hk
  | cons q rest ih =>
    rw [loadBytes_cons]
    rw [List.nodup_cons] at hd
    cases k with
    | zero =>
      simp at hk; subst hk
      rw [readV_loadBytes_of_not_mem _ _ _ hd.1]
      simp
    | succ k =>
      rw [List.getElem?_cons_succ] at hk
      have hne : r ≠ q := by
        rintro rfl
        exact hd.1 (List.mem_of_getElem? hk)
      rw [ih (a + 1) k _ hd.2 hk, readV_writeV_other hne]
      have hb : ∀ d, State.byteAt { s with diag := d } (a + 1 + k) = s.byteAt (a + 1 + k) := fun _ => rfl
      have hv : ∀ d, State.readV { s with diag := d } r = s.readV r := fun _ => rfl
      rw [byteAt_writeV, hb, hv]
      congr 2
      omega

theorem nodup_regsUpTo (x : Reg) : (regsUpTo x).Nodup := by revert x; decide

/-! ## Timers -/

/-- A timer's value as a number: the counter less the decrements, never below 0 (44_timers.md R96). -/
theorem toNat_timerValue (hz : Nat) (t : Timer) (now : Nat) :
    (timerValue hz t now).toNat = t.counter.toNat - decayed hz t.startedAt now := by
  have h := t.counter.isLt
  unfold timerValue
  split
  next h0 => simp [h0]
  next =>
    split
    · simp; omega
    · simp; omega

/-- A delay read changes at most the delay counter, to 0, and only when it reads 0 (44_timers.md R98). -/
theorem delayRead_eq (s : State) :
    s.delayRead = (timerValue s.params.timeHz s.delay s.input.now,
      { s with delay := { s.delay with
        counter := if timerValue s.params.timeHz s.delay s.input.now = 0 then 0 else s.delay.counter } }) := by
  unfold State.delayRead
  by_cases h : timerValue s.params.timeHz s.delay s.input.now = 0
  · rw [if_pos h, if_pos h]
  · rw [if_neg h, if_neg h]

/-! ## Registers with a flag -/

theorem readV_writeWithFlag (x q : Reg) (b flag : Byte) (s : State) :
    (s.writeWithFlag x b flag).readV q = if q = VF then flag else if q = x then b else s.readV q := by
  unfold State.writeWithFlag
  rw [readV_writeV, readV_writeV]

/-- A result with a flag changes the register file alone. -/
theorem writeWithFlag_eq (x : Reg) (b flag : Byte) (s : State) :
    s.writeWithFlag x b flag = { s with v := (s.v.set x b).set VF flag } := rfl

/-! ## The display -/

@[simp] theorem length_flipPixel (p : Params) (fb : Framebuffer) (x y : Nat) :
    (flipPixel p fb x y).length = fb.length := by
  simp [flipPixel]

/-- Drawing a row keeps the surface's size. -/
theorem length_blitColumns (p : Params) (x0 y : Nat) (b : Byte) (cs : List Nat) (acc : Framebuffer × Bool) :
    (blitColumns p x0 y b cs acc).1.length = acc.1.length := by
  induction cs generalizing acc with
  | nil => rfl
  | cons c rest ih =>
    unfold blitColumns
    split
    · rfl
    · split <;> simp [ih]

/-- A blit changes the framebuffer, which keeps its size, and appends to the diagnostic output; nothing else. -/
theorem blitRows_frame (x0 y0 : Nat) (rows : List Nat) (acc : State × Bool) :
    ∃ fb ev, (blitRows x0 y0 rows acc).1 = { acc.1 with fb := fb, diag := acc.1.diag ++ ev } ∧
      fb.length = acc.1.fb.length := by
  induction rows generalizing acc with
  | nil => exact ⟨acc.1.fb, [], by simp [blitRows], rfl⟩
  | cons r rest ih =>
    obtain ⟨s, collided⟩ := acc
    unfold blitRows
    split
    · exact ⟨s.fb, [], by simp, rfl⟩
    · rw [memRead_eq]
      cases h : s.byteAt (s.ea r) with
      | none =>
        obtain ⟨fb, ev, h1, h2⟩ := ih ({ s with diag := s.diag ++ (readReject s.params (s.ea r)).toList }, collided)
        exact ⟨fb, (readReject s.params (s.ea r)).toList ++ ev, by simpa using h1, h2⟩
      | some b =>
        dsimp only
        generalize hd : blitColumns _ _ _ _ _ _ = drawn
        obtain ⟨fb, ev, h1, h2⟩ := ih
          ({ s with diag := s.diag ++ (readReject s.params (s.ea r)).toList, fb := drawn.1 }, drawn.2)
        refine ⟨fb, (readReject s.params (s.ea r)).toList ++ ev, by simpa using h1, ?_⟩
        rw [h2, ← hd]
        exact length_blitColumns _ _ _ _ _ _

theorem blit_frame (vx vy : Byte) (n : Nibble) (s : State) :
    ∃ fb ev, (blit vx vy n s).1 = { s with fb := fb, diag := s.diag ++ ev } ∧ fb.length = s.fb.length :=
  blitRows_frame _ _ _ _

end Sys2Proof.Machine
end

