-- ==== Sys2Proof/Laws/PerInstr.lean ====
section
/-! SUPPORT. The family FixedBits: an instruction's encoding carries exactly the fixed bits its row of the opcode
table names (30_encoding.md R56, R57), and lies in the row's class. One lemma per instruction. -/

namespace Sys2Proof.Laws.FixedBits

/-- The row of the table an instruction belongs to covers its word: masked, the word is the row's pattern. -/
def Statement (i : Instr) : Prop :=
  ∃ row ∈ opcodeTable, row.mnemonic = i.mnemonic ∧ encode i &&& row.mask = row.pattern

/-- A row of the table that covers the word. -/
theorem of_row {i : Instr} (k : Nat) (row : OpcodeRow) (hk : opcodeTable[k]? = some row)
    (hm : row.mnemonic = i.mnemonic) (hw : encode i &&& row.mask = row.pattern) : Statement i :=
  ⟨row, List.mem_of_getElem? hk, hm, hw⟩

/-! ## What each mask leaves of a word of each format -/

theorem encA_class (op : Nibble) (nnn : Addr12) : encA op nnn &&& 0xF000#16 = op.setWidth 16 <<< 12 := by
  apply BitVec.eq_of_getLsbD_eq; intro k hk
  interval_cases k <;> simp [encA]

theorem encXNN_class (op : Nibble) (x : Reg) (nn : Byte) :
    encXNN op x nn &&& 0xF000#16 = op.setWidth 16 <<< 12 := by
  apply BitVec.eq_of_getLsbD_eq; intro k hk
  interval_cases k <;> simp [encXNN, wordOfBytes, byteOfNibbles]

theorem encXNN_classByte (op : Nibble) (x : Reg) (nn : Byte) :
    encXNN op x nn &&& 0xF0FF#16 = (op.setWidth 16 <<< 12) ||| nn.setWidth 16 := by
  apply BitVec.eq_of_getLsbD_eq; intro k hk
  interval_cases k <;> simp [encXNN, wordOfBytes, byteOfNibbles]

theorem encXY_class (op : Nibble) (x y : Reg) (f : Nibble) :
    encXY op x y f &&& 0xF000#16 = op.setWidth 16 <<< 12 := by
  apply BitVec.eq_of_getLsbD_eq; intro k hk
  interval_cases k <;> simp [encXY, wordOfBytes, byteOfNibbles]

theorem encXY_classFunction (op : Nibble) (x y : Reg) (f : Nibble) :
    encXY op x y f &&& 0xF00F#16 = (op.setWidth 16 <<< 12) ||| f.setWidth 16 := by
  apply BitVec.eq_of_getLsbD_eq; intro k hk
  interval_cases k <;> simp [encXY, wordOfBytes, byteOfNibbles]

/-! ## One lemma per instruction -/

theorem cls : Statement (.cls) :=
  of_row 0 _ rfl rfl (rfl)
theorem ret : Statement (.ret) :=
  of_row 1 _ rfl rfl (rfl)
theorem jp (nnn : Addr12) : Statement (.jp nnn) :=
  of_row 2 _ rfl rfl (encA_class _ nnn)
theorem call (nnn : Addr12) : Statement (.call nnn) :=
  of_row 3 _ rfl rfl (encA_class _ nnn)
theorem seByte (x : Reg) (nn : Byte) : Statement (.seByte x nn) :=
  of_row 4 _ rfl rfl (encXNN_class _ x nn)
theorem sneByte (x : Reg) (nn : Byte) : Statement (.sneByte x nn) :=
  of_row 5 _ rfl rfl (encXNN_class _ x nn)
theorem seReg (x y : Reg) : Statement (.seReg x y) :=
  of_row 6 _ rfl rfl (encXY_classFunction _ x y _)
theorem ldByte (x : Reg) (nn : Byte) : Statement (.ldByte x nn) :=
  of_row 7 _ rfl rfl (encXNN_class _ x nn)
theorem addByte (x : Reg) (nn : Byte) : Statement (.addByte x nn) :=
  of_row 8 _ rfl rfl (encXNN_class _ x nn)
theorem ldReg (x y : Reg) : Statement (.ldReg x y) :=
  of_row 9 _ rfl rfl (encXY_classFunction _ x y _)
theorem orReg (x y : Reg) : Statement (.orReg x y) :=
  of_row 10 _ rfl rfl (encXY_classFunction _ x y _)
theorem andReg (x y : Reg) : Statement (.andReg x y) :=
  of_row 11 _ rfl rfl (encXY_classFunction _ x y _)
theorem xorReg (x y : Reg) : Statement (.xorReg x y) :=
  of_row 12 _ rfl rfl (encXY_classFunction _ x y _)
theorem addReg (x y : Reg) : Statement (.addReg x y) :=
  of_row 13 _ rfl rfl (encXY_classFunction _ x y _)
theorem subReg (x y : Reg) : Statement (.subReg x y) :=
  of_row 14 _ rfl rfl (encXY_classFunction _ x y _)
theorem shr (x y : Reg) : Statement (.shr x y) :=
  of_row 15 _ rfl rfl (encXY_classFunction _ x y _)
theorem subnReg (x y : Reg) : Statement (.subnReg x y) :=
  of_row 16 _ rfl rfl (encXY_classFunction _ x y _)
theorem shl (x y : Reg) : Statement (.shl x y) :=
  of_row 17 _ rfl rfl (encXY_classFunction _ x y _)
theorem sneReg (x y : Reg) : Statement (.sneReg x y) :=
  of_row 18 _ rfl rfl (encXY_classFunction _ x y _)
theorem ldI (nnn : Addr12) : Statement (.ldI nnn) :=
  of_row 19 _ rfl rfl (encA_class _ nnn)
theorem rnd (x : Reg) (nn : Byte) : Statement (.rnd x nn) :=
  of_row 20 _ rfl rfl (encXNN_class _ x nn)
theorem drw (x y : Reg) (n : Nibble) : Statement (.drw x y n) :=
  of_row 21 _ rfl rfl (encXY_class _ x y n)
theorem skp (x : Reg) : Statement (.skp x) :=
  of_row 22 _ rfl rfl (encXNN_classByte _ x _)
theorem sknp (x : Reg) : Statement (.sknp x) :=
  of_row 23 _ rfl rfl (encXNN_classByte _ x _)
theorem ldFromDelay (x : Reg) : Statement (.ldFromDelay x) :=
  of_row 24 _ rfl rfl (encXNN_classByte _ x _)
theorem ldKey (x : Reg) : Statement (.ldKey x) :=
  of_row 25 _ rfl rfl (encXNN_classByte _ x _)
theorem ldDelay (x : Reg) : Statement (.ldDelay x) :=
  of_row 26 _ rfl rfl (encXNN_classByte _ x _)
theorem ldSound (x : Reg) : Statement (.ldSound x) :=
  of_row 27 _ rfl rfl (encXNN_classByte _ x _)
theorem addI (x : Reg) : Statement (.addI x) :=
  of_row 28 _ rfl rfl (encXNN_classByte _ x _)
theorem ldFont (x : Reg) : Statement (.ldFont x) :=
  of_row 29 _ rfl rfl (encXNN_classByte _ x _)
theorem ldBcd (x : Reg) : Statement (.ldBcd x) :=
  of_row 30 _ rfl rfl (encXNN_classByte _ x _)
theorem storeRegs (x : Reg) : Statement (.storeRegs x) :=
  of_row 31 _ rfl rfl (encXNN_classByte _ x _)
theorem loadRegs (x : Reg) : Statement (.loadRegs x) :=
  of_row 32 _ rfl rfl (encXNN_classByte _ x _)

end Sys2Proof.Laws.FixedBits
end

