-- ==== Sys2Proof/Laws/Step.lean ====
section
/-! SUPPORT. What sampling, fetching and a step can do, said once. -/

namespace Sys2Proof.Machine

/-! ## Inputs -/

@[simp] theorem nextInput_cons (s : State) (inp : StepInput) (rest : List StepInput) (h : s.inputs = inp :: rest) :
    s.nextInput = inp := by
  simp [State.nextInput, h]

/-- With nothing fixed by the host, the clock has not run backwards, and the random byte and the stop request are
free values. -/
theorem nextInput_nil (s : State) (h : s.inputs = []) :
    s.input.now ≤ s.nextInput.now ∧ s.nextInput.rand = Config.freeRand s.tick ∧
      s.nextInput.stop = Config.freeStop s.tick := by
  simp [State.nextInput, h]

/-- Letting the next instruction run changes nothing of the next step's inputs but the stop request. -/
@[simp] theorem nextInput_withStopLow (s : State) :
    s.withStopLow.nextInput = { s.nextInput with stop := false } := rfl

/-- Letting the next instruction run leaves the step the state it would have had. -/
@[simp] theorem takeInput_withStopLow (s : State) : s.withStopLow.takeInput = s.takeInput := rfl

/-! ## Fetch -/

/-- A fetch fails exactly where its second byte is beyond memory; otherwise it reads two bytes and advances pc. -/
theorem fetch_cases (s : State) :
    (s.params.memSize ≤ s.pc.toNat + 1 ∧ s.fetch = .error (.fetchOutOfRange s.pc)) ∨
    (s.pc.toNat + 1 < s.params.memSize ∧
      s.fetch = .ok (s.pc, Memory.read s.params s.mem s.pc.toNat, Memory.read s.params s.mem (s.pc.toNat + 1),
        s.advancePc)) := by
  unfold State.fetch
  split
  next h => exact .inl ⟨h, rfl⟩
  next h => exact .inr ⟨by omega, rfl⟩

/-! ## Cycle and step -/

/-- What a running machine does: it stops, fails to fetch, fails to decode, or executes, in this order
(60_exceptions.md R112). -/
theorem runCycle_cases (s : State) :
    (s.input.stop = true ∧ runCycle s = .next (s.raiseFatal (.stopped s.pc))) ∨
    (s.input.stop = false ∧ s.params.memSize ≤ s.pc.toNat + 1 ∧
      runCycle s = .next (s.raiseFatal (.fetchOutOfRange s.pc))) ∨
    (∃ b1 b2 e, s.input.stop = false ∧ s.pc.toNat + 1 < s.params.memSize ∧
      b1 = Memory.read s.params s.mem s.pc.toNat ∧ b2 = Memory.read s.params s.mem (s.pc.toNat + 1) ∧
      decode (wordOfBytes b1 b2) = .error e ∧
      runCycle s = .next (s.advancePc.raiseFatal (decodeFailureAt s.pc b1 b2))) ∨
    (∃ b1 b2 i, s.input.stop = false ∧ s.pc.toNat + 1 < s.params.memSize ∧
      b1 = Memory.read s.params s.mem s.pc.toNat ∧ b2 = Memory.read s.params s.mem (s.pc.toNat + 1) ∧
      decode (wordOfBytes b1 b2) = .ok i ∧ runCycle s = exec i s.advancePc) := by
  unfold runCycle
  cases hs : s.input.stop with
  | true => exact .inl ⟨rfl, by simp⟩
  | false =>
    rcases fetch_cases s with ⟨h, hf⟩ | ⟨h, hf⟩
    · exact .inr (.inl ⟨rfl, h, by simp [hf]⟩)
    · cases hd : decode (wordOfBytes (Memory.read s.params s.mem s.pc.toNat)
          (Memory.read s.params s.mem (s.pc.toNat + 1))) with
      | error e => exact .inr (.inr (.inl ⟨_, _, e, rfl, h, rfl, rfl, hd, by simp [hf, hd]⟩))
      | ok i => exact .inr (.inr (.inr ⟨_, _, i, rfl, h, rfl, rfl, hd, by simp [hf, hd]⟩))

/-- A step of a running machine is a cycle with the step's inputs held. -/
theorem step_running (s : State) (h : s.status = .running) :
    step s = runCycle (s.takeInput.sample s.nextInput) := by
  simp [step, stepWith, h]

theorem step_halted (s : State) (r : HaltReason) (h : s.status = .halted r) : step s = .fault (.halted r) := by
  simp [step, stepWith, h]

/-- Only a running machine has a next state. -/
theorem running_of_step_next {s t : State} (h : step s = .next t) : s.status = .running := by
  cases hs : s.status with
  | running => rfl
  | halted r => rw [step_halted s r hs] at h; cases h

end Sys2Proof.Machine
end

