-- ==== Sys2Proof/Tests/Slice0.lean ====
section
/-! SUPPORT. Own tests. Expected results are those of 95_test_vectors.md (the vector's id stands at each test) and of
the worked examples in the rules. Then one witness per statement that has hypotheses. -/

namespace Sys2Proof.Tests

open Sys2Proof Sys2Proof.Machine Sys2Proof.Safety

/-! ## Small states -/

/-- The default parameters with the vectors' own `TIME_HZ` of 1000. -/
def demoParams : Params := Config.defaultParamsAt 1000

/-- The state after construction with an empty program. -/
def demo : State := State.initial demoParams [] 0

/-- That state with some registers set. -/
def demoV (rs : List (Reg × Byte)) : State := rs.foldl (fun s r => s.writeV r.1 r.2) demo

/-- A state with I set. -/
def atI (i : Word) (s : State) : State := { s with i := i }

/-- A state with its held inputs set. -/
def withNow (now : Nat) (s : State) : State := { s with input := ⟨now, 0, false⟩ }

/-- A state with bytes loaded from an address up. -/
def loaded (a : Nat) (bytes : List Byte) (s : State) : State :=
  { s with mem := Memory.load s.params s.mem a bytes }

/-- The state an instruction leaves. -/
def after (i : Instr) (s : State) : State :=
  match exec i s with
  | .next t => t
  | .fault _ => s
  | .refused _ => s

/-- The state a step leaves, on an instruction word placed at pc. -/
def stepped (w : Nat) (s : State) : Option State :=
  match step (s.withFetchWord 16 w) with
  | .next t => some t
  | .fault _ => none
  | .refused _ => none

/-- The pixels of row 0 between two columns. -/
def row0 (s : State) (lo n : Nat) : List Bool := (List.range n).map fun k => pixelAt s.params s.fb (lo + k) 0

/-! ## Well-formedness refuses each kind of ill-formed term -/

theorem test_wf_defaults : demoParams.wf = true := by decide
theorem test_wf_font_past_memory : ({ demoParams with fontBase := 4017 } : Params).wf = false := by decide
theorem test_wf_memory_too_large : ({ demoParams with memSize := 0x10001 } : Params).wf = false := by decide
theorem test_wf_start_past_memory : ({ demoParams with startPc := 4096 } : Params).wf = false := by decide
theorem test_wf_no_columns : ({ demoParams with displayW := 0 } : Params).wf = false := by decide
theorem test_wf_no_rows : ({ demoParams with displayH := 0 } : Params).wf = false := by decide
theorem test_wf_no_stack : ({ demoParams with stackDepth := 0 } : Params).wf = false := by decide
theorem test_wf_no_clock : ({ demoParams with timeHz := 0 } : Params).wf = false := by decide
/-- CN1, CN2 -/
theorem test_wf_program_fits : demoParams.fits 3584 = true ∧ demoParams.fits 3585 = false := by decide
/-- CN3 -/
theorem test_wf_program_on_font : ({ demoParams with startPc := 0x40 } : Params).overlapsFont 0x20 = true := by decide
/-- Every instruction is well formed (R55). -/
theorem test_wf_instruction : (Instr.drw 15 15 15).wellFormed = true := by decide

/-! ## Decode: each constructor from a word written out from its encoding (R56, R58) -/

theorem test_decode_control : decode 0x00E0 = .ok .cls ∧ decode 0x00EE = .ok .ret ∧ decode 0x1FED = .ok (.jp 0xFED) ∧
    decode 0x2300 = .ok (.call 0x300) ∧ decode 0x3A42 = .ok (.seByte 10 0x42) ∧
    decode 0x4B24 = .ok (.sneByte 11 0x24) ∧ decode 0x5120 = .ok (.seReg 1 2) ∧
    decode 0x9CD0 = .ok (.sneReg 12 13) := by decide
theorem test_decode_alu : decode 0x6A01 = .ok (.ldByte 10 1) ∧ decode 0x7B02 = .ok (.addByte 11 2) ∧
    decode 0x8120 = .ok (.ldReg 1 2) ∧ decode 0x8121 = .ok (.orReg 1 2) ∧ decode 0x8122 = .ok (.andReg 1 2) ∧
    decode 0x8123 = .ok (.xorReg 1 2) ∧ decode 0x8124 = .ok (.addReg 1 2) ∧ decode 0x8125 = .ok (.subReg 1 2) ∧
    decode 0x8126 = .ok (.shr 1 2) ∧ decode 0x8127 = .ok (.subnReg 1 2) ∧ decode 0x812E = .ok (.shl 1 2) ∧
    decode 0xC3F0 = .ok (.rnd 3 0xF0) := by decide
theorem test_decode_index : decode 0xA300 = .ok (.ldI 0x300) ∧ decode 0xF929 = .ok (.ldFont 9) ∧
    decode 0xF833 = .ok (.ldBcd 8) ∧ decode 0xF11E = .ok (.addI 1) ∧ decode 0xF755 = .ok (.storeRegs 7) ∧
    decode 0xF665 = .ok (.loadRegs 6) := by decide
theorem test_decode_devices : decode 0xD12F = .ok (.drw 1 2 15) ∧ decode 0xF107 = .ok (.ldFromDelay 1) ∧
    decode 0xF215 = .ok (.ldDelay 2) ∧ decode 0xF318 = .ok (.ldSound 3) ∧ decode 0xE49E = .ok (.skp 4) ∧
    decode 0xE5A1 = .ok (.sknp 5) ∧ decode 0xF60A = .ok (.ldKey 6) := by decide
/-- FD5 to FD8 -/
theorem test_decode_failures : decode 0xB123 = .error (.noPattern 0xB123) ∧
    decode 0x0123 = .error (.noPattern 0x0123) ∧ decode 0x00E1 = .error (.noPattern 0x00E1) ∧
    decode 0x5121 = .error (.noPattern 0x5121) ∧ decode 0x9121 = .error (.noPattern 0x9121) ∧
    decode 0x8008 = .error (.noPattern 0x8008) ∧ decode 0x800F = .error (.noPattern 0x800F) ∧
    decode 0xE000 = .error (.noPattern 0xE000) ∧ decode 0xF0FF = .error (.noPattern 0xF0FF) := by decide
/-- R39: the byte at the lower address is the high one; R51: two bytes are needed. -/
theorem test_decode_bytes : decodeBytes [0x12, 0x34, 0x56] = .ok (.jp 0x234, [0x56]) ∧
    decodeBytes [0x12] = .error .truncated ∧ encodeBytes (.jp 0x234) = [0x12, 0x34] ∧
    decodeTableWord 16 0x8124 = some (.addReg 1 2) ∧ decodeTableWord 16 0xB123 = none := by decide
/-- The 33 patterns are pairwise disjoint (R57): where two rows' masks meet, their patterns differ. -/
theorem test_table_disjoint :
    opcodeTable.Pairwise fun r q => r.pattern &&& q.mask &&& r.mask ≠ q.pattern &&& r.mask &&& q.mask := by decide

/-! ## Fetch, step and construction -/

/-- FD1 -/
theorem test_step_big_endian : (stepped 0x1234 demo).map State.pc = some 0x234 := by decide
/-- FD2, FD10 -/
theorem test_step_edge_and_odd : (stepped 0x1200 { demo with pc := 0xFFE }).map State.pc = some 0x200 ∧
    (stepped 0x6007 { demo with pc := 0x201 }).map (fun t => (t.readV 0, t.pc)) = some (7, 0x203) := by decide
/-- FD3, CF3 -/
theorem test_step_fetch_out_of_range : (stepped 0x1200 { demo with pc := 0xFFF }).map (fun t => (t.status, t.pc)) =
    some (.halted (.fetchOutOfRange 0xFFF), 0xFFF) := by decide
/-- FD4, CN4 -/
theorem test_step_decode_failure : (stepped 0 demo).map (fun t => (t.status, t.pc)) =
    some (.halted (.decodeFailure 0x200 0 0 0 0 0 0), 0x202) := by decide
/-- FD5: the record holds the raw bytes and nibbles (R109). -/
theorem test_step_decode_record : (stepped 0xB123 demo).map State.status =
    some (.halted (.decodeFailure 0x200 0xB1 0x23 0xB 1 2 3)) := by decide
/-- FD12 -/
theorem test_step_stop_wins : ∃ t, step (({ demo with pc := 0xFFF } : State).schedule [⟨0, 0, true⟩]) = .next t ∧
    t.status = .halted (.stopped 0xFFF) ∧ t.pc = 0xFFF := ⟨_, rfl, by decide, by decide⟩
/-- R13, R116: a stop request can come at the first step, whatever the host has fixed. -/
theorem test_step_free_stop (h : Config.freeStop 0 = true) :
    ∃ t, step State.reset = .next t ∧ t.status = .halted (.stopped 0x200) :=
  ⟨_, by rw [step_running _ rfl]; simp [runCycle, State.sample, State.takeInput, State.nextInput, State.reset,
    State.initial, h]; rfl, rfl⟩
/-- R110: a halted machine has no step. -/
theorem test_step_halted : step (demo.raiseFatal (.stackUnderflow 0x200)) = .fault (.halted (.stackUnderflow 0x200)) :=
  rfl
/-- CN5: glyph 0 stands at 0x50, and only the load is logged. -/
theorem test_reset_font : (List.range 5).map (fun k => State.reset.byteAt (0x50 + k)) =
    [some 0xF0, some 0x90, some 0x90, some 0x90, some 0xF0] ∧ State.reset.byteAt 0x200 = some 0 ∧
    State.reset.pc = 0x200 ∧ State.reset.diag = [.programLoaded 0] := by decide
/-- The interface's own question: the reset machine runs a placed word as its first instruction. -/
theorem test_reset_runs_first_word : ∃ t, step (State.reset.withFetchWord 16 0x6A12) = .next t ∧ t.readV 10 = 0x12 ∧
    t.pc = 0x202 := ⟨_, rfl, by decide, by decide⟩
/-- CN3 -/
theorem test_construct_overlap :
    construct { demoParams with startPc := 0x40 } (List.replicate 0x20 0) = .error .loadOverlapsFont := by decide
/-- The program lies at START_PC (R37). -/
theorem test_construct_program : ∃ s, construct demoParams [0x60, 0x05] = .ok s ∧ s.byteAt 0x200 = some 0x60 ∧
    s.byteAt 0x201 = some 0x05 ∧ s.byteAt 0x202 = some 0 := ⟨_, rfl, by decide, by decide, by decide⟩
/-- R108 -/
theorem test_codes : haltCode (.stopped 0) = 0 ∧ haltCode (.fetchOutOfRange 0) = 4 ∧
    eventCode (.outOfRangeRead 0) = some 5 ∧ eventCode (.readOnlyWrite 0) = some 7 ∧
    haltIsError (.stopped 0) = false := by decide

/-! ## Control flow -/

/-- CF1 -/
theorem test_ret : (after .ret { demo with stack := [0x206] }).pc = 0x206 ∧
    (after .ret { demo with stack := [0x206] }).stack = [] := by decide
/-- CF2 -/
theorem test_ret_underflow : (stepped 0x00EE demo).map (fun t => (t.status, t.pc)) =
    some (.halted (.stackUnderflow 0x200), 0x202) := by decide
/-- CF4 -/
theorem test_jp : (stepped 0x1200 demo).map State.pc = some 0x200 := by decide
/-- CF5 -/
theorem test_call : (stepped 0x2300 demo).map (fun t => (t.stack, t.pc)) = some ([0x202], 0x300) := by decide
/-- CF6 -/
theorem test_call_overflow : (stepped 0x2300 { demo with stack := List.replicate 16 0x202 }).map
    (fun t => (t.status, t.pc, t.stack.length)) = some (.halted (.stackOverflow 0x200), 0x202, 16) := by decide
/-- CF7, CF8 -/
theorem test_se_byte : (stepped 0x3342 (demoV [(3, 0x42)])).map State.pc = some 0x204 ∧
    (stepped 0x3342 (demoV [(3, 0x41)])).map State.pc = some 0x202 := by decide
/-- CF9, CF10 -/
theorem test_sne_byte : (stepped 0x4342 (demoV [(3, 0x42)])).map State.pc = some 0x202 ∧
    (stepped 0x4342 (demoV [(3, 0x41)])).map State.pc = some 0x204 := by decide
/-- CF11; unequal registers do not skip (R70). -/
theorem test_se_reg : (stepped 0x5120 (demoV [(1, 7), (2, 7)])).map State.pc = some 0x204 ∧
    (stepped 0x5120 (demoV [(1, 7), (2, 8)])).map State.pc = some 0x202 := by decide
/-- CF13, CF14 -/
theorem test_sne_reg : (stepped 0x9120 (demoV [(1, 7), (2, 8)])).map State.pc = some 0x204 ∧
    (stepped 0x9110 (demoV [(1, 7)])).map State.pc = some 0x202 := by decide

/-! ## Register and arithmetic instructions -/

/-- AL1 -/
theorem test_ld_byte : (after (.ldByte 10 0xFF) demo).readV 10 = 0xFF := by decide
/-- AL2, AL3 -/
theorem test_add_byte : (after (.addByte 2 0x20) (demoV [(2, 0xF0), (15, 0x55)])).readV 2 = 0x10 ∧
    (after (.addByte 2 0x20) (demoV [(2, 0xF0), (15, 0x55)])).readV VF = 0x55 ∧
    (after (.addByte 15 0xFF) (demoV [(15, 1)])).readV VF = 0 := by decide
/-- AL4 -/
theorem test_ld_reg : (after (.ldReg 0 1) (demoV [(1, 0x33)])).readV 0 = 0x33 := by decide
/-- AL5 -/
theorem test_or : (after (.orReg 0 1) (demoV [(0, 0x0F), (1, 0xF0), (15, 0x77)])).readV 0 = 0xFF ∧
    (after (.orReg 0 1) (demoV [(0, 0x0F), (1, 0xF0), (15, 0x77)])).readV VF = 0x77 := by decide
/-- AL6 -/
theorem test_and : (after (.andReg 0 1) (demoV [(0, 0x3C), (1, 0x0F)])).readV 0 = 0x0C := by decide
/-- AL7, AL8 -/
theorem test_xor : (after (.xorReg 0 1) (demoV [(0, 0x3C), (1, 0x0F)])).readV 0 = 0x33 ∧
    (after (.xorReg 0 0) (demoV [(0, 0x3C)])).readV 0 = 0 := by decide
/-- S2 -/
theorem test_add_reg : (after (.addReg 0 1) (demoV [(0, 0xFF), (1, 1)])).readV 0 = 0 ∧
    (after (.addReg 0 1) (demoV [(0, 0xFF), (1, 1)])).readV VF = 1 ∧
    (after (.addReg 0 1) (demoV [(0, 0xFE), (1, 1)])).readV VF = 0 := by decide
/-- AL12, AL13: the flag replaces the sum when X is 15. -/
theorem test_add_reg_flag_last : (after (.addReg 15 1) (demoV [(15, 0xF0), (1, 0x20)])).readV VF = 1 ∧
    (after (.addReg 15 1) (demoV [(15, 0x10), (1, 0x20)])).readV VF = 0 := by decide
/-- AL15, AL16 -/
theorem test_sub : (after (.subReg 0 1) (demoV [(0, 3), (1, 5)])).readV 0 = 0xFE ∧
    (after (.subReg 0 1) (demoV [(0, 3), (1, 5)])).readV VF = 0 ∧
    (after (.subReg 0 1) (demoV [(0, 5), (1, 5)])).readV VF = 0 := by decide
/-- AL14, AL18 -/
theorem test_sub_flag : (after (.subReg 0 1) (demoV [(0, 5), (1, 3)])).readV VF = 1 ∧
    (after (.subReg 15 1) (demoV [(15, 0x10), (1, 1)])).readV VF = 1 := by decide
/-- AL20, AL21 -/
theorem test_shr : (after (.shr 0 1) (demoV [(0, 4), (1, 0xFF)])).readV 0 = 2 ∧
    (after (.shr 0 1) (demoV [(0, 4), (1, 0xFF)])).readV VF = 0 ∧
    (after (.shr 15 0) (demoV [(15, 2)])).readV VF = 0 := by decide
/-- AL22, AL23 -/
theorem test_subn : (after (.subnReg 0 1) (demoV [(0, 3), (1, 5)])).readV 0 = 2 ∧
    (after (.subnReg 0 1) (demoV [(0, 3), (1, 5)])).readV VF = 1 ∧
    (after (.subnReg 0 1) (demoV [(0, 5), (1, 3)])).readV 0 = 0xFE := by decide
/-- AL25, AL26 -/
theorem test_shl : (after (.shl 0 1) (demoV [(0, 0x81)])).readV 0 = 2 ∧
    (after (.shl 0 1) (demoV [(0, 0x81)])).readV VF = 1 ∧
    (after (.shl 0 1) (demoV [(0, 0x40), (1, 0xFF)])).readV 0 = 0x80 := by decide
/-- AL28: the step's random byte, given by the host. -/
theorem test_rnd : (stepped 0xC00F (demo.schedule [⟨0, 0xA7, false⟩])).map (fun t => t.readV 0) = some 7 := by decide
/-- AL29: whatever the random byte, masked by 0 it is 0. -/
theorem test_rnd_any : (after (.rnd 0 0) { demo with input := ⟨0, Config.freeRand 0, false⟩ }).readV 0 = 0 := by
  simp [after, exec, execRnd, State.readV, State.writeV]

/-! ## Index register and memory instructions -/

/-- IM1 -/
theorem test_ld_i : (after (.ldI 0x300) demo).i = 0x300 := by decide
/-- IM3, IM4: not masked to a nibble -/
theorem test_ld_font : (after (.ldFont 0) (demoV [(0, 0x0F)])).i = 0x09B ∧
    (after (.ldFont 0) (demoV [(0, 0xFF)])).i = 0x54B := by decide
/-- IM5, IM6 -/
theorem test_ld_bcd : (List.range 3).map (fun k => (after (.ldBcd 0) (atI 0x300 (demoV [(0, 254)]))).byteAt (0x300 + k)) =
      [some 2, some 5, some 4] ∧
    (List.range 3).map (fun k => (after (.ldBcd 0) (atI 0x300 { demoV [(0, 254)] with
      params := { demoParams with bcdMode := .referenceDup } })).byteAt (0x300 + k)) =
      [some 2, some 4, some 4] := by decide
/-- IM9, IM11 -/
theorem test_ld_bcd_skips : (after (.ldBcd 0) (atI 0xFFF (demoV [(0, 254)]))).diag =
      [.programLoaded 0, .outOfRangeWrite 0x1000, .outOfRangeWrite 0x1001] ∧
    (after (.ldBcd 0) (atI 0x50 (demoV [(0, 254)]))).diag =
      [.programLoaded 0, .readOnlyWrite 0x50, .readOnlyWrite 0x51, .readOnlyWrite 0x52] ∧
    (after (.ldBcd 0) (atI 0x50 (demoV [(0, 254)]))).byteAt 0x50 = some 0xF0 := by decide
/-- IM14, IM15 -/
theorem test_add_i : (after (.addI 0) (atI 0xFFFF (demoV [(0, 1)]))).i = 0 ∧
    (after (.addI 0) (atI 0x0FFF (demoV [(0, 1)]))).i = 0x1000 ∧
    (after (.addI 0) (atI 0xFFFF (demoV [(0, 1)]))).readV VF = 0 := by decide
/-- IM16, IM17 -/
theorem test_store_regs : (after (.storeRegs 1) (atI 0x300 (demoV [(0, 1), (1, 2)]))).byteAt 0x301 = some 2 ∧
    (after (.storeRegs 1) (atI 0x300 (demoV [(0, 1), (1, 2)]))).i = 0x300 ∧
    (after (.storeRegs 0) (atI 0x300 (demoV [(0, 9), (1, 8)]))).byteAt 0x301 = some 0 := by decide
/-- IM19 -/
theorem test_store_regs_font : (after (.storeRegs 1) (atI 0x09F (demoV [(0, 1), (1, 2)]))).diag =
      [.programLoaded 0, .readOnlyWrite 0x09F] ∧
    (after (.storeRegs 1) (atI 0x09F (demoV [(0, 1), (1, 2)]))).byteAt 0x0A0 = some 2 := by decide
/-- IM21 -/
theorem test_load_regs_skip : (after (.loadRegs 1) (atI 0xFFF (loaded 0xFFF [0xAB] (demoV [(1, 0x77)])))).readV 0 = 0xAB ∧
    (after (.loadRegs 1) (atI 0xFFF (loaded 0xFFF [0xAB] (demoV [(1, 0x77)])))).readV 1 = 0x77 ∧
    (after (.loadRegs 1) (atI 0xFFF (loaded 0xFFF [0xAB] (demoV [(1, 0x77)])))).diag =
      [.programLoaded 0, .outOfRangeRead 0x1000] := by decide
/-- IM22 -/
theorem test_load_regs_font : (List.range 5).map (fun k => (after (.loadRegs 4) (atI 0x50 demo)).v[k]?) =
    [some 0xF0, some 0x90, some 0x90, some 0x90, some 0xF0] := by decide

/-! ## Display -/

/-- S8, the second clear -/
theorem test_cls : row0 (after .cls { demo with fb := List.replicate 2048 true }) 0 3 = [false, false, false] := by
  decide
/-- DS2: clipped at the right edge, not wrapped -/
theorem test_drw_clips : row0 (after (.drw 0 1 1) (atI 0x300 (loaded 0x300 [0xFF] (demoV [(0, 60)])))) 59 5 =
      [false, true, true, true, true] ∧
    row0 (after (.drw 0 1 1) (atI 0x300 (loaded 0x300 [0xFF] (demoV [(0, 60)])))) 0 2 = [false, false] := by
  decide +kernel
/-- DS8: the leftmost pixel is bit 7; a set pixel turned off is a collision -/
theorem test_drw_collides :
    row0 (after (.drw 0 1 1) (atI 0x300 (loaded 0x300 [0xC0] { demo with fb := demo.fb.set 0 true }))) 0 3 =
      [false, true, false] ∧
    (after (.drw 0 1 1) (atI 0x300 (loaded 0x300 [0xC0] { demo with fb := demo.fb.set 0 true }))).readV VF = 1 := by
  decide +kernel

/-! ## Timers -/

/-- TM4, TM9: measured from the write, no drift -/
theorem test_read_delay : (after (.ldFromDelay 1) (withNow 17 { demo with delay := ⟨60, 0⟩ })).readV 1 = 59 ∧
    (after (.ldFromDelay 1) (withNow 34 (after (.ldFromDelay 1) (withNow 17 { demo with delay := ⟨60, 0⟩ })))).readV 1 =
      58 := by decide
/-- TM7, TM12 -/
theorem test_read_delay_ends : (after (.ldFromDelay 1) (withNow 1000 { demo with delay := ⟨60, 0⟩ })).delay = ⟨0, 0⟩ ∧
    (after (.ldFromDelay 1) (withNow 500 { demo with delay := ⟨60, 1000⟩ })).readV 1 = 60 := by decide
/-- TM11 -/
theorem test_write_delay : (after (.ldDelay 0) (withNow 200 demo)).delay = ⟨0, 200⟩ := by decide
/-- TM13 -/
theorem test_write_sound : (after (.ldSound 2) (withNow 100 (demoV [(2, 3)]))).sound = ⟨3, 100⟩ ∧
    (after (.ldSound 2) (withNow 100 (demoV [(2, 3)]))).soundActive 149 = true ∧
    (after (.ldSound 2) (withNow 100 (demoV [(2, 3)]))).soundActive 150 = false := by decide

/-! ## Key stubs -/

/-- KS1, KS2 -/
theorem test_key_skips : (stepped 0xE19E demo).map State.pc = some 0x202 ∧
    (stepped 0xE1A1 demo).map State.pc = some 0x202 := by decide
/-- KS3 -/
theorem test_key_wait : (stepped 0xF30A (demoV [(3, 9)])).map (fun t => (t.pc, t.readV 3)) = some (0x202, 9) := by decide

/-! ## Witnesses: for each statement with hypotheses, a state and operands that meet them all -/

/-- The running demo machine with an instruction word at pc. -/
def ready (w : Nat) : State := demo.withFetchWord 16 w

/-- It meets the invariant. -/
theorem witness_inv : Inv (ready 0x6A12) where
  params := by decide
  memWf := by decide
  memInBounds := by decide
  stackFits := by decide
  fbSize := List.length_replicate
  fontIntact := by intro _; decide

theorem witness_EncodeOfDecodeIsTheWord : decode 0x8124 = .ok (.addReg 1 2) := by decide
theorem witness_DecodeFollowsTheOpcodeTable_covered : ∃ row ∈ opcodeTable, row.covers 0x8124 = true := by decide
theorem witness_DecodeFollowsTheOpcodeTable_uncovered : ∀ row ∈ opcodeTable, row.covers 0xB123 = false := by decide

theorem witness_ConstructionRefusesInOrder_legal : 0xFFB0 + 80 ≤ 0x10000 ∧
    ({ demoParams with memSize := 0x10000, fontBase := 0xFFB0, startPc := 0xFFFF } : Params).wf = true := by decide
theorem witness_ConstructionRefusesInOrder_parameters : ({ demoParams with memSize := 0x10001 } : Params).wf = false := by
  decide
theorem witness_ConstructionRefusesInOrder_overflow : demoParams.wf = true ∧
    demoParams.memSize < demoParams.startPc + (List.replicate 3585 (0 : Byte)).length := by
  rw [List.length_replicate]; decide
/-- The last byte of the program is the first of the font. -/
theorem witness_ConstructionRefusesInOrder_overlap : ∃ p : Params, p.wf = true ∧
    p.startPc + (List.replicate 0x11 (0 : Byte)).length ≤ p.memSize ∧ 0 < (List.replicate 0x11 (0 : Byte)).length ∧
    p.startPc < p.fontBase + 80 ∧ p.fontBase < p.startPc + (List.replicate 0x11 (0 : Byte)).length :=
  ⟨{ demoParams with startPc := 0x40 }, by decide⟩
/-- CN2: the largest program that fits. -/
theorem witness_ConstructionLeavesTheResetState : demoParams.wf = true ∧
    demoParams.startPc + (List.replicate 3584 (0 : Byte)).length ≤ demoParams.memSize ∧
    ¬ (0 < (List.replicate 3584 (0 : Byte)).length ∧ demoParams.startPc < demoParams.fontBase + 80 ∧
      demoParams.fontBase < demoParams.startPc + (List.replicate 3584 (0 : Byte)).length) := by
  rw [List.length_replicate]; decide
/-- A program that ends right below the font does not meet it. -/
theorem witness_ConstructionLeavesTheResetState_below : ∃ p : Params, p.wf = true ∧
    p.startPc + [(0 : Byte), 0].length ≤ p.memSize ∧
    ¬ (0 < [(0 : Byte), 0].length ∧ p.startPc < p.fontBase + 80 ∧ p.fontBase < p.startPc + [(0 : Byte), 0].length) :=
  ⟨{ demoParams with startPc := 0x4E }, by decide⟩
theorem witness_ConstructionMeetsTheInvariant : ∃ s, construct demoParams [0x60, 0x05] = .ok s := ⟨_, rfl⟩

theorem witness_StepRunsTheDecodedInstruction : (ready 0x6A12).status = .running ∧
    (ready 0x6A12).nextInput.stop = false ∧ (ready 0x6A12).pc.toNat + 1 < (ready 0x6A12).params.memSize ∧
    decode (wordOfBytes (Memory.read demoParams (ready 0x6A12).mem 0x200)
      (Memory.read demoParams (ready 0x6A12).mem 0x201)) = .ok (.ldByte 10 0x12) := by decide
theorem witness_StepTakesTheHostsInputs_given : (demo.schedule [⟨5, 1, false⟩]).inputs = [⟨5, 1, false⟩] := by decide
theorem witness_StepTakesTheHostsInputs_free : demo.inputs = [] := by decide
theorem witness_StopHaltsBeforeTheFetch : (demo.schedule [⟨5, 1, true⟩]).status = .running ∧
    (demo.schedule [⟨5, 1, true⟩]).nextInput.stop = true := by decide
/-- pc = 0xFFE is the last address a fetch is in range at, 0xFFF the first it is not. -/
theorem witness_FetchReadsTwoBytesOrHalts : (0xFFE : Word).toNat + 1 < demo.params.memSize ∧
    demo.params.memSize ≤ (0xFFF : Word).toNat + 1 ∧ ({ demo with pc := 0xFFF } : State).withStopLow.status = .running ∧
    ({ demo with pc := 0xFFF } : State).withStopLow.nextInput.stop = false := by decide
theorem witness_DecodeFailureHalts : (ready 0xB123).status = .running ∧ (ready 0xB123).nextInput.stop = false ∧
    (ready 0xB123).pc.toNat + 1 < (ready 0xB123).params.memSize ∧ (ready 0xB123).byteAt 0x200 = some 0xB1 ∧
    (ready 0xB123).byteAt 0x201 = some 0x23 ∧
    decode (wordOfBytes 0xB1 0x23) = .error (.noPattern 0xB123) := by decide
theorem witness_HaltedMachineHasNoStep : (demo.raiseFatal (.stopped 0x200)).status = .halted (.stopped 0x200) := rfl
theorem witness_RunningMachineHasANextState : demo.status = .running := rfl

/-- For StepHaltsInThePriorityOrder and HaltedStateHoldsNoPartialEffects: one state for each of the five reasons. -/
theorem witness_halts :
    (∃ t, step (demo.schedule [⟨5, 1, true⟩]) = .next t ∧ t.status = .halted (.stopped 0x200)) ∧
    (∃ t, step ({ demo with pc := 0xFFF } : State).withStopLow = .next t ∧ t.status = .halted (.fetchOutOfRange 0xFFF)) ∧
    (∃ t, step (ready 0xB123) = .next t ∧ t.status = .halted (.decodeFailure 0x200 0xB1 0x23 0xB 1 2 3)) ∧
    (∃ t, step (ready 0x00EE) = .next t ∧ t.status = .halted (.stackUnderflow 0x200)) ∧
    (∃ t, step { ready 0x2300 with stack := List.replicate 16 0 } = .next t ∧
      t.status = .halted (.stackOverflow 0x200)) :=
  ⟨⟨_, rfl, by decide⟩, ⟨_, rfl, by decide⟩, ⟨_, rfl, by decide⟩, ⟨_, rfl, by decide⟩, ⟨_, rfl, by decide⟩⟩

/-- For StepKeepsTheInvariant, FontRegionIsImmutable's step and DiagIsAppendOnlyAndNeverRead. -/
theorem witness_StepKeepsTheInvariant : Inv (ready 0x6A12) ∧ ∃ t, step (ready 0x6A12) = .next t :=
  ⟨witness_inv, _, rfl⟩
theorem witness_StepKeepsTheClockOrder :
    ClockInv ((loaded 0x200 [0x6A, 0x12] demo).schedule [⟨5, 1, false⟩, ⟨5, 2, false⟩, ⟨9, 3, true⟩]) ∧
    ∃ t, step ((loaded 0x200 [0x6A, 0x12] demo).schedule [⟨5, 1, false⟩, ⟨5, 2, false⟩, ⟨9, 3, true⟩]) = .next t :=
  ⟨⟨by decide, by decide, by decide⟩, _, rfl⟩
/-- The font's first and last byte, protected and not. -/
theorem witness_FontRegionIsImmutable : demo.params.fontBase ≤ 0x50 ∧ 0x9F < demo.params.fontBase + 80 ∧
    0x9F < demo.params.memSize ∧ demo.params.fontWritable = false ∧
    ({ demo with params := { demoParams with fontWritable := true } } : State).params.fontWritable = true := by decide
theorem witness_CanonicalMemoryIsUnique : Memory.wf demoParams [(0x200, 1), (0x300, 2)] = true ∧
    ∀ a, Memory.read demoParams [(0x200, 1), (0x300, 2)] a = Memory.read demoParams [(0x200, 1), (0x300, 2)] a :=
  ⟨by decide, fun _ => rfl⟩

/-- For ExecChangesOnlyItsFootprint, PcChangesOnlyAsListed, InputsReachOnlyTheirReaders and SoundTimerIsOnlyAnOutput:
an instruction that skips, one that returns, one that jumps, one that does neither. -/
theorem witness_exec_next : (∃ t, exec (.seByte 0 0) demo = .next t ∧ t.pc = demo.pc + 2) ∧
    (∃ t, exec .ret { demo with stack := [0x206] } = .next t ∧ t.pc = 0x206) ∧
    (∃ t, exec (.jp 0x234) demo = .next t ∧ t.pc.toNat = 0x234) ∧
    (∃ t, exec (.ldByte 0 5) demo = .next t ∧ t.pc = demo.pc) :=
  ⟨⟨_, rfl, by decide⟩, ⟨_, rfl, by decide⟩, ⟨_, rfl, by decide⟩, ⟨_, rfl, by decide⟩⟩
theorem witness_FlagsAreZeroOrOne : (∃ t, exec (.addReg 0 1) demo = .next t) ∧ ∃ t, exec (.drw 0 1 1) demo = .next t :=
  ⟨⟨_, rfl⟩, ⟨_, rfl⟩⟩
theorem witness_InputsReachOnlyTheirReaders : (∀ x nn, Instr.cls ≠ .rnd x nn) ∧
    (∀ x, Instr.cls ≠ .ldFromDelay x ∧ Instr.cls ≠ .ldDelay x ∧ Instr.cls ≠ .ldSound x) ∧
    ∃ t, exec .cls demo = .next t :=
  ⟨nofun, fun _ => ⟨nofun, nofun, nofun⟩, _, rfl⟩

theorem witness_RetPopsOrUnderflows : ({ demo with stack := [0x204, 0x206] } : State).stack = [0x204] ++ [0x206] ∧
    demo.stack = [] := by decide
/-- A stack with one entry free, and a full one. -/
theorem witness_CallPushesOrOverflows :
    (List.replicate 15 (0 : Word)).length < demo.params.stackDepth ∧
    (List.replicate 16 (0 : Word)).length = demo.params.stackDepth := by decide
/-- The stack discipline's clause: two nested calls fill the stack. -/
theorem witness_CallPushesOrOverflows_nested : [(0x300 : Addr12), 0x400] ≠ [] ∧
    (List.replicate 14 (0 : Word)).length + [(0x300 : Addr12), 0x400].length ≤ demo.params.stackDepth := by decide
theorem witness_result_is_not_the_flag_register : (14 : Reg) ≠ VF := by decide

/-- The class and function nibbles and bytes the encoding clauses ask for. -/
theorem witness_encoding_clauses : nib1 0x1234 = 0x1#4 ∧ nib1 0x2300 = 0x2#4 ∧ nib1 0x3342 = 0x3#4 ∧
    nib1 0x4342 = 0x4#4 ∧ (nib1 0x5120 = 0x5#4 ∧ nib4 0x5120 = 0#4) ∧ (nib1 0x9120 = 0x9#4 ∧ nib4 0x9120 = 0#4) ∧
    (nib1 0x5121 = 0x5#4 ∧ nib4 0x5121 ≠ 0#4) ∧ nib1 0x6A01 = 0x6#4 ∧ nib1 0x7A01 = 0x7#4 ∧
    (nib1 0x8124 = 0x8#4 ∧ nib4 0x8124 = 0x4#4) ∧ (nib1 0x812E = 0x8#4 ∧ nib4 0x812E = 0xE#4) ∧
    nib1 0xA300 = 0xA#4 ∧ nib1 0xC10F = 0xC#4 ∧ nib1 0xD015 = 0xD#4 := by decide
theorem witness_encoding_clauses_by_byte : (nib1 0xE19E = 0xE#4 ∧ fieldNN 0xE19E = 0x9E#8) ∧
    (nib1 0xE1A1 = 0xE#4 ∧ fieldNN 0xE1A1 = 0xA1#8) ∧ (nib1 0xF107 = 0xF#4 ∧ fieldNN 0xF107 = 0x07#8) ∧
    (nib1 0xF10A = 0xF#4 ∧ fieldNN 0xF10A = 0x0A#8) ∧ (nib1 0xF115 = 0xF#4 ∧ fieldNN 0xF115 = 0x15#8) ∧
    (nib1 0xF118 = 0xF#4 ∧ fieldNN 0xF118 = 0x18#8) ∧ (nib1 0xF11E = 0xF#4 ∧ fieldNN 0xF11E = 0x1E#8) ∧
    (nib1 0xF129 = 0xF#4 ∧ fieldNN 0xF129 = 0x29#8) ∧ (nib1 0xF133 = 0xF#4 ∧ fieldNN 0xF133 = 0x33#8) ∧
    (nib1 0xF155 = 0xF#4 ∧ fieldNN 0xF155 = 0x55#8) ∧ (nib1 0xF165 = 0xF#4 ∧ fieldNN 0xF165 = 0x65#8) := by decide

/-- The last address of memory, the first beyond it, the font's two ends and their neighbours. -/
theorem witness_DataAccessesFollowTheBoundsPolicy : demo.params.memSize ≤ 4096 ∧ 4095 < demo.params.memSize ∧
    demo.params.fontWritable = false ∧ demo.params.fontBase ≤ 0x50 ∧ 0x9F < demo.params.fontBase + 80 ∧
    ¬ (demo.params.fontBase ≤ 0x4F) ∧ ¬ (0xA0 < demo.params.fontBase + 80) ∧
    ¬ (demo.params.fontBase ≤ 4095 ∧ 4095 < demo.params.fontBase + 80) := by decide
/-- For LdBcdStoresThreeDigits, StoreRegsStoresEachRegister and LoadRegsLoadsEachRegister: a register in the range
and one past it, an accepted address and a skipped one. -/
theorem witness_memory_instructions : (3 : Reg) ≤ 3 ∧ ¬ (4 : Reg) ≤ 3 ∧ writeReject demo.params 4095 = none ∧
    writeReject demo.params 4096 = some (.outOfRangeWrite 4096) ∧ demo.byteAt 4095 = some 0 ∧
    demo.byteAt 4096 = none := by decide
/-- Bytes stored at pc and pc + 1, at pc + 1 alone, at neither, and one whose store the font's protection skips. -/
theorem witness_StoredBytesAreFetchedNext : demo.pc.toNat + 1 < demo.params.memSize ∧
    (∃ t, exec (.storeRegs 1) (atI 0x200 (demoV [(0, 1), (1, 2)])) = .next t) ∧
    byteAfterStore (atI 0x200 (demoV [(0, 1), (1, 2)])) ((regsUpTo 1).map (demoV [(0, 1), (1, 2)]).readV) 0x201 =
      some 2 ∧
    (∃ t, exec (.ldBcd 0) (atI 0x201 (demoV [(0, 254)])) = .next t) ∧
    byteAfterStore (atI 0x201 (demoV [(0, 254)])) (bcdDigits .decimal 254) 0x200 = some 0 ∧
    byteAfterStore (atI 0x201 (demoV [(0, 254)])) (bcdDigits .decimal 254) 0x201 = some 2 ∧
    byteAfterStore (atI 0x050 (demoV [(0, 254)])) (bcdDigits .decimal 254) 0x050 = some 0xF0 :=
  ⟨by decide, ⟨_, rfl⟩, by decide, ⟨_, rfl⟩, by decide, by decide, by decide⟩

theorem witness_DrwXorsTheClippedSprite : 1 ≤ demo.params.displayW ∧ 1 ≤ demo.params.displayH ∧
    demo.fb.length = demo.params.displayW * demo.params.displayH ∧ 63 < demo.params.displayW ∧
    31 < demo.params.displayH :=
  ⟨by decide, by decide, List.length_replicate, by decide, by decide⟩
theorem witness_DrawingTwiceRestoresTheSurface : ∃ t,
    exec (.drw 0 1 1) (atI 0x300 (loaded 0x300 [0xFF] (demoV [(0, 60)]))) = .next t ∧ t.readV 0 = 60 ∧ t.readV 1 = 0 :=
  ⟨_, rfl, by decide +kernel, by decide +kernel⟩
/-- The clock at the write, just before the first decrement, at the end, and after it. -/
theorem witness_TimerValueDecays : 1 ≤ 1000 ∧ 60 * (16 - 0) < 1000 ∧ (60 : Byte).toNat * 1000 ≤ 60 * (1000 - 0) ∧
    1000 ≤ 5000 := by decide

end Sys2Proof.Tests
end

section
/-! PROOFS, 00_scope.md: the reset state is a construction, and every step keeps the invariant. -/

namespace Sys2Proof.Machine

/-! ## Construction (70_reset_and_hazards.md R124) -/

/-- A construction whose three checks pass leaves the initial state over the loaded program. -/
theorem construct_eq_initial {p : Params} {program : List Byte} (hwf : p.wf = true)
    (hfits : p.fits program.length = true) (hfont : p.overlapsFont program.length = false) :
    construct p program = .ok (State.initial p (Memory.load p [] p.startPc program) program.length) := by
  simp [construct, hwf, hfits, hfont]

/-- The defaults are legal at every clock rate of at least 1 (00_scope.md R7). -/
theorem wf_defaultParamsAt {hz : Nat} (h : 1 ≤ hz) : (Config.defaultParamsAt hz).wf = true := by
  simp [Params.wf, Config.defaultParamsAt, h]

/-- An empty program fits wherever the load address exists. -/
theorem fits_empty {p : Params} (hwf : p.wf = true) : p.fits 0 = true := by
  simp [Params.wf] at hwf
  simp [Params.fits]
  omega

/-- An empty program meets no font region. -/
@[simp] theorem overlapsFont_empty (p : Params) : p.overlapsFont 0 = false := by
  simp [Params.overlapsFont]

/-- Settles O8: the three checks pass on the defaults, and an empty program loads nothing. -/
theorem resetIsTheDefaultConstruction : Obligations.ResetIsTheDefaultConstruction :=
  have hwf : Config.defaultParams.wf = true := wf_defaultParamsAt (Nat.le_add_left 1 _)
  construct_eq_initial hwf (fits_empty hwf) (overlapsFont_empty _)

/-! ## Call and return (40_control_flow.md R65, R67) -/

/-- A return underflows exactly on an empty stack; otherwise it takes the last entry to pc. -/
theorem execRet_cases (s : State) :
    (s.stack = [] ∧ execRet s = .next (s.raiseFatal (.stackUnderflow s.instrAddr))) ∨
    (∃ rest w, s.stack = rest ++ [w] ∧ execRet s = .next (State.jump w { s with stack := rest })) := by
  rcases pop_cases s with ⟨hempty, hpop⟩ | ⟨rest, w, hstack, hpop⟩
  · exact .inl ⟨hempty, by rw [execRet, hpop]; rfl⟩
  · exact .inr ⟨rest, w, hstack, by rw [execRet, hpop]; rfl⟩

/-- A call overflows exactly on a full stack; otherwise it pushes pc and jumps. -/
theorem execCall_cases (nnn : Addr12) (s : State) :
    (s.stack.length = s.params.stackDepth ∧
      execCall nnn s = .next (s.raiseFatal (.stackOverflow s.instrAddr))) ∨
    (s.stack.length ≠ s.params.stackDepth ∧
      execCall nnn s = .next (State.jump (zextAddr nnn) { s with stack := s.stack ++ [s.pc] })) := by
  rcases push_cases s.pc s with ⟨hfull, hpush⟩ | ⟨hroom, hpush⟩
  · exact .inl ⟨hfull, by rw [execCall, hpush]; rfl⟩
  · exact .inr ⟨hroom, by rw [execCall, hpush]; rfl⟩

/-! ## Stores and the protected font (20_memory.md R38) -/

theorem inFont_add {p : Params} {k : Nat} (hk : k < 80) : inFont p (p.fontBase + k) = true := by
  simp [inFont, hk]

/-- No store changes a byte of a protected font. -/
theorem byteAt_storeBytes_of_inFont (bytes : List Byte) (a : Nat) {c : Nat} {s : State}
    (hw : s.params.fontWritable = false) (hc : inFont s.params c = true) :
    (s.storeBytes a bytes).byteAt c = s.byteAt c := by
  have hr : writeReject s.params c ≠ none := fun h => by
    simp [notFont_of_writeReject_none hw h] at hc
  simp [byteAt_storeBytes, hr]

end Sys2Proof.Machine

namespace Sys2Proof.Safety

open Sys2Proof.Machine

variable {s t : State}

/-! ## What keeps the invariant: it reads the parameters, memory, the stack's depth and the surface's size alone -/

/-- Where memory stays, the invariant asks for the stack's depth and the surface's size alone. -/
theorem Inv.of_mem_eq (h : Inv s) (hp : t.params = s.params) (hm : t.mem = s.mem)
    (hstack : t.stack.length ≤ s.params.stackDepth) (hfb : t.fb.length = s.fb.length) : Inv t where
  params := hp ▸ h.params
  memWf := by rw [hp, hm]; exact h.memWf
  memInBounds := by rw [hp, hm]; exact h.memInBounds
  stackFits := hp ▸ hstack
  fbSize := by rw [hfb, hp]; exact h.fbSize
  fontIntact hw k hk := by
    rw [byteAt_congr hm hp, hp]
    exact h.fontIntact (hp ▸ hw) k hk

/-- The invariant is blind to registers, pc, timers, status, events and inputs. -/
theorem Inv.of_eq (h : Inv s) (hp : t.params = s.params) (hm : t.mem = s.mem)
    (hstack : t.stack = s.stack) (hfb : t.fb = s.fb) : Inv t :=
  h.of_mem_eq hp hm (hstack ▸ h.stackFits) (hfb ▸ rfl)

theorem Inv.raiseFatal (h : Inv s) (r : HaltReason) : Inv (s.raiseFatal r) := h.of_eq rfl rfl rfl rfl

theorem Inv.advancePc (h : Inv s) : Inv s.advancePc := h.of_eq rfl rfl rfl rfl

theorem Inv.skipIf (h : Inv s) (c : Bool) : Inv (s.skipIf c) := h.of_eq (by simp) (by simp) (by simp) (by simp)

/-- A store keeps memory canonical and within its bounds, and leaves a protected font alone. -/
theorem Inv.storeBytes (h : Inv s) (a : Nat) (bytes : List Byte) : Inv (s.storeBytes a bytes) := by
  obtain ⟨hwf, hbounds⟩ := storeBytes_keeps_memory bytes a s h.memWf h.memInBounds
  have hfont : s.params.fontWritable = false → ∀ k, k < 80 →
      (s.storeBytes a bytes).byteAt (s.params.fontBase + k) = some (glyphByte s.params k) := fun hw k hk =>
    (byteAt_storeBytes_of_inFont bytes a hw (inFont_add hk)).trans (h.fontIntact hw k hk)
  obtain ⟨m, hm⟩ := storeBytes_frame bytes a s
  rw [hm] at hwf hbounds hfont ⊢
  exact ⟨h.params, hwf, hbounds, h.stackFits, h.fbSize, hfont⟩

/-! ## The instructions that touch a component the invariant reads, or a shared operation that could -/

theorem Inv.execRet (h : Inv s) : ∃ t, execRet s = .next t ∧ Inv t := by
  rcases execRet_cases s with ⟨-, hret⟩ | ⟨rest, w, hstack, hret⟩
  · exact ⟨_, hret, h.raiseFatal _⟩
  · have hfits : rest.length ≤ s.params.stackDepth :=
      Nat.le_of_succ_le (by simpa [hstack] using h.stackFits)
    exact ⟨_, hret, h.of_mem_eq rfl rfl hfits rfl⟩

theorem Inv.execCall (h : Inv s) (nnn : Addr12) : ∃ t, execCall nnn s = .next t ∧ Inv t := by
  rcases execCall_cases nnn s with ⟨-, hcall⟩ | ⟨hroom, hcall⟩
  · exact ⟨_, hcall, h.raiseFatal _⟩
  · have hfits : (s.stack ++ [s.pc]).length ≤ s.params.stackDepth := by
      simpa using Nat.lt_of_le_of_ne h.stackFits hroom
    exact ⟨_, hcall, h.of_mem_eq rfl rfl hfits rfl⟩

theorem Inv.execCls (h : Inv s) : ∃ t, execCls s = .next t ∧ Inv t :=
  have hsize : (blankFb s.params).length = s.fb.length := List.length_replicate.trans h.fbSize.symm
  ⟨_, rfl, h.of_mem_eq rfl rfl h.stackFits hsize⟩

theorem Inv.execDrw (h : Inv s) (x y : Reg) (n : Nibble) : ∃ t, execDrw x y n s = .next t ∧ Inv t := by
  obtain ⟨fb, ev, hblit, hsize⟩ := blit_frame (s.readV x) (s.readV y) n s
  refine ⟨_, rfl, ?_⟩
  rw [hblit]
  exact h.of_mem_eq rfl rfl h.stackFits hsize

theorem Inv.execLdFromDelay (h : Inv s) (x : Reg) : ∃ t, execLdFromDelay x s = .next t ∧ Inv t := by
  refine ⟨_, rfl, ?_⟩
  rw [delayRead_eq]
  exact h.of_eq rfl rfl rfl rfl

theorem Inv.execLoadRegs (h : Inv s) (x : Reg) : ∃ t, execLoadRegs x s = .next t ∧ Inv t := by
  obtain ⟨v, hload⟩ := loadBytes_frame (regsUpTo x) (s.ea 0) s
  exact ⟨_, congrArg Host.Outcome.next hload, h.of_eq rfl rfl rfl rfl⟩

/-! ## Every instruction, every cycle, every step -/

/-- Every instruction has a next state, and it meets the invariant. -/
theorem Inv.exec (h : Inv s) (i : Instr) : ∃ t, exec i s = .next t ∧ Inv t := by
  cases i with
  | cls => exact h.execCls
  | ret => exact h.execRet
  | call nnn => exact h.execCall nnn
  | drw x y n => exact h.execDrw x y n
  | ldFromDelay x => exact h.execLdFromDelay x
  | loadRegs x => exact h.execLoadRegs x
  | ldBcd _ | storeRegs _ => exact ⟨_, rfl, h.storeBytes _ _⟩
  | seByte _ _ | sneByte _ _ | seReg _ _ | sneReg _ _ => exact ⟨_, rfl, h.skipIf _⟩
  | skp _ | sknp _ | ldKey _ => exact ⟨s, rfl, h⟩
  | jp _ | ldByte _ _ | addByte _ _ | ldReg _ _ | orReg _ _ | andReg _ _ | xorReg _ _ | addReg _ _ | subReg _ _
  | shr _ _ | subnReg _ _ | shl _ _ | rnd _ _ | ldI _ | addI _ | ldFont _ | ldDelay _ | ldSound _ =>
    exact ⟨_, rfl, h.of_eq rfl rfl rfl rfl⟩

/-- A cycle halts with status and pc alone changed, or runs an instruction. -/
theorem Inv.runCycle (h : Inv s) : ∃ t, runCycle s = .next t ∧ Inv t := by
  rcases runCycle_cases s with ⟨-, hrun⟩ | ⟨-, -, hrun⟩ | ⟨_, _, _, -, -, -, -, -, hrun⟩ |
    ⟨_, _, i, -, -, -, -, -, hrun⟩
  · exact ⟨_, hrun, h.raiseFatal _⟩
  · exact ⟨_, hrun, h.raiseFatal _⟩
  · exact ⟨_, hrun, h.advancePc.raiseFatal _⟩
  · exact hrun ▸ h.advancePc.exec i

/-- Settles O18: taking the inputs touches nothing the invariant reads, and the cycle keeps it. -/
theorem stepKeepsTheInvariant : Obligations.StepKeepsTheInvariant := by
  intro s t h hstep
  have hheld : Inv (s.takeInput.sample s.nextInput) := h.of_eq rfl rfl rfl rfl
  obtain ⟨t', hrun, ht'⟩ := hheld.runCycle
  rw [step_running s (running_of_step_next hstep), hrun] at hstep
  cases hstep
  exact ht'

end Sys2Proof.Safety
end

section
/-! PROOFS, 10_state.md: what an instruction changes, the clock, and what no instruction reads. -/

namespace Sys2Proof.Safety

open Sys2Proof.Machine

variable {s t : State}

/-! ## The step's inputs (10_state.md R30) -/

/-- Settles O10: the step takes the head of the fixed inputs, or the free values where there is none. -/
theorem stepTakesTheHostsInputs : Obligations.StepTakesTheHostsInputs := by
  constructor
  · intro s inp rest hgiven
    simp [step, State.takeInput, nextInput_cons s inp rest hgiven, hgiven]
  · intro s hfree
    obtain ⟨hnow, hrand, hstop⟩ := nextInput_nil s hfree
    exact ⟨s.nextInput, hnow, hrand, hstop, by simp [step, State.takeInput, hfree]⟩

/-! ## Footprints -/

/-- To keep a footprint, registers and memory keep to its lists, and the other components it leaves out are equal. -/
theorem Footprint.Keeps.of_eq {f : Footprint} (hregs : ∀ r, r ∉ f.regs → t.readV r = s.readV r)
    (hmem : ∀ a, a ∉ f.mem → t.byteAt a = s.byteAt a)
    (hrest : t = { s with
      v := t.v
      mem := t.mem
      i := if f.i then t.i else s.i
      pc := if f.pc then t.pc else s.pc
      stack := if f.stack then t.stack else s.stack
      delay := if f.delay then t.delay else s.delay
      sound := if f.sound then t.sound else s.sound
      fb := if f.fb then t.fb else s.fb
      status := if f.status then t.status else s.status
      diag := if f.diag then t.diag else s.diag }) : f.Keeps s t := by
  constructor
  case regs => exact hregs
  case mem => exact hmem
  case params | input | inputs | tick => rw [hrest]
  all_goals
    rw [hrest]
    simp +contextual

theorem keeps_writeV (x : Reg) (b : Byte) (s : State) : Footprint.Keeps { regs := [x] } s (s.writeV x b) :=
  .of_eq (fun _ hr => readV_writeV_other (by simpa using hr) b s) (fun _ _ => rfl) rfl

theorem keeps_writeWithFlag (x : Reg) (b flag : Byte) (s : State) :
    Footprint.Keeps { regs := [x, VF] } s (s.writeWithFlag x b flag) := by
  refine .of_eq (fun r hr => ?_) (fun _ _ => rfl) rfl
  obtain ⟨hx, hvf⟩ : r ≠ x ∧ r ≠ VF := by simpa using hr
  rw [readV_writeWithFlag, if_neg hvf, if_neg hx]

theorem keeps_skipIf (c : Bool) (s : State) : Footprint.Keeps { pc := true } s (s.skipIf c) := by
  cases c with
  | true => exact .of_eq (fun _ _ => rfl) (fun _ _ => rfl) rfl
  | false => exact .of_eq (fun _ _ => rfl) (fun _ _ => rfl) rfl

/-- A store from `I` up keeps to the addresses of its bytes. -/
theorem keeps_storeBytes (bytes : List Byte) (s : State) :
    Footprint.Keeps { mem := storedAddrs s bytes.length, diag := true } s (s.storeBytes (s.ea 0) bytes) := by
  have hmem : ∀ a, a ∉ storedAddrs s bytes.length → (s.storeBytes (s.ea 0) bytes).byteAt a = s.byteAt a := by
    intro a ha
    rw [byteAt_storeBytes, if_neg]
    rintro ⟨hlo, hhi, -⟩
    simp only [State.ea] at hlo hhi
    exact ha (List.mem_map.mpr ⟨a - s.i.toNat, List.mem_range.mpr (by omega), by simp only [State.ea]; omega⟩)
  obtain ⟨m, hm⟩ := storeBytes_frame bytes (s.ea 0) s
  rw [hm] at hmem ⊢
  exact .of_eq (fun _ _ => rfl) hmem rfl

theorem keeps_loadBytes (rs : List Reg) (a : Nat) (s : State) :
    Footprint.Keeps { regs := rs, diag := true } s (s.loadBytes a rs) := by
  have hregs : ∀ r, r ∉ rs → (s.loadBytes a rs).readV r = s.readV r := fun _ =>
    readV_loadBytes_of_not_mem rs a s
  obtain ⟨v, hv⟩ := loadBytes_frame rs a s
  rw [hv] at hregs ⊢
  exact .of_eq hregs (fun _ _ => rfl) rfl

theorem execRet_keeps (s : State) :
    ∃ t, execRet s = .next t ∧ Footprint.Keeps { pc := true, stack := true, status := true } s t := by
  rcases execRet_cases s with ⟨-, hret⟩ | ⟨_, _, -, hret⟩
  · exact ⟨_, hret, .of_eq (fun _ _ => rfl) (fun _ _ => rfl) rfl⟩
  · exact ⟨_, hret, .of_eq (fun _ _ => rfl) (fun _ _ => rfl) rfl⟩

theorem execCall_keeps (nnn : Addr12) (s : State) :
    ∃ t, execCall nnn s = .next t ∧ Footprint.Keeps { pc := true, stack := true, status := true } s t := by
  rcases execCall_cases nnn s with ⟨-, hcall⟩ | ⟨-, hcall⟩
  · exact ⟨_, hcall, .of_eq (fun _ _ => rfl) (fun _ _ => rfl) rfl⟩
  · exact ⟨_, hcall, .of_eq (fun _ _ => rfl) (fun _ _ => rfl) rfl⟩

theorem execDrw_keeps (x y : Reg) (n : Nibble) (s : State) :
    ∃ t, execDrw x y n s = .next t ∧ Footprint.Keeps { regs := [VF], fb := true, diag := true } s t := by
  obtain ⟨fb, ev, hblit, -⟩ := blit_frame (s.readV x) (s.readV y) n s
  refine ⟨_, rfl, ?_⟩
  rw [hblit]
  exact .of_eq (fun _ hr => readV_writeV_other (by simpa using hr) _ _) (fun _ _ => rfl) rfl

theorem execLdFromDelay_keeps (x : Reg) (s : State) :
    ∃ t, execLdFromDelay x s = .next t ∧ Footprint.Keeps { regs := [x], delay := true } s t := by
  refine ⟨_, rfl, ?_⟩
  rw [delayRead_eq]
  exact .of_eq (fun _ hr => readV_writeV_other (by simpa using hr) _ _) (fun _ _ => rfl) rfl

/-- Every instruction has a next state, and it keeps the instruction's footprint. -/
theorem exec_keeps (i : Instr) (s : State) : ∃ t, exec i s = .next t ∧ (footprint s i).Keeps s t := by
  cases i with
  | ret => exact execRet_keeps s
  | call nnn => exact execCall_keeps nnn s
  | drw x y n => exact execDrw_keeps x y n s
  | ldFromDelay x => exact execLdFromDelay_keeps x s
  | loadRegs x => exact ⟨_, rfl, keeps_loadBytes _ _ s⟩
  | ldBcd x =>
    exact ⟨_, rfl, by simpa [footprint] using keeps_storeBytes (bcdDigits s.params.bcdMode (s.readV x)) s⟩
  | storeRegs x => exact ⟨_, rfl, by simpa [footprint] using keeps_storeBytes ((regsUpTo x).map s.readV) s⟩
  | seByte _ _ | sneByte _ _ | seReg _ _ | sneReg _ _ => exact ⟨_, rfl, keeps_skipIf _ s⟩
  | ldByte x _ | addByte x _ | ldReg x _ | orReg x _ | andReg x _ | xorReg x _ | rnd x _ =>
    exact ⟨_, rfl, keeps_writeV x _ s⟩
  | addReg x _ | subReg x _ | shr x _ | subnReg x _ | shl x _ => exact ⟨_, rfl, keeps_writeWithFlag x _ _ s⟩
  | cls | jp _ | ldI _ | addI _ | ldFont _ | ldDelay _ | ldSound _ | skp _ | sknp _ | ldKey _ =>
    exact ⟨_, rfl, .of_eq (fun _ _ => rfl) (fun _ _ => rfl) rfl⟩

/-- Settles O23: an instruction has one next state, and that keeps the footprint. -/
theorem execChangesOnlyItsFootprint : Obligations.ExecChangesOnlyItsFootprint := by
  intro i s t h
  obtain ⟨t', hexec, hkeeps⟩ := exec_keeps i s
  cases hexec.symm.trans h
  exact hkeeps

/-! ## pc (10_state.md R20) -/

theorem pc_skipIf (c : Bool) (s : State) : (s.skipIf c).pc = s.pc ∨ (s.skipIf c).pc = s.pc + 2 := by
  cases c with
  | true => exact .inr rfl
  | false => exact .inl rfl

theorem toNat_zextAddr (nnn : Addr12) : (zextAddr nnn).toNat = nnn.toNat :=
  BitVec.toNat_setWidth_of_le (by decide)

/-- Settles O24: an instruction whose footprint leaves pc out keeps it; the others skip, jump or return. -/
theorem pcChangesOnlyAsListed : Obligations.PcChangesOnlyAsListed := by
  intro i s t h
  have hkeeps := execChangesOnlyItsFootprint i s t h
  cases i with
  | seByte x nn =>
    cases h
    exact (pc_skipIf _ s).imp_right fun hpc => .inl ⟨.inl ⟨x, nn, .inl rfl⟩, hpc⟩
  | sneByte x nn =>
    cases h
    exact (pc_skipIf _ s).imp_right fun hpc => .inl ⟨.inl ⟨x, nn, .inr rfl⟩, hpc⟩
  | seReg x y =>
    cases h
    exact (pc_skipIf _ s).imp_right fun hpc => .inl ⟨.inr ⟨x, y, .inl rfl⟩, hpc⟩
  | sneReg x y =>
    cases h
    exact (pc_skipIf _ s).imp_right fun hpc => .inl ⟨.inr ⟨x, y, .inr rfl⟩, hpc⟩
  | jp nnn =>
    cases h
    exact .inr (.inr (.inl ⟨nnn, .inl rfl, toNat_zextAddr nnn⟩))
  | call nnn =>
    rcases execCall_cases nnn s with ⟨-, hcall⟩ | ⟨-, hcall⟩
    · cases hcall.symm.trans h
      exact .inl rfl
    · cases hcall.symm.trans h
      exact .inr (.inr (.inl ⟨nnn, .inr rfl, toNat_zextAddr nnn⟩))
  | ret =>
    rcases execRet_cases s with ⟨-, hret⟩ | ⟨rest, w, hstack, hret⟩
    · cases hret.symm.trans h
      exact .inl rfl
    · cases hret.symm.trans h
      exact .inr (.inr (.inr ⟨rfl, by simp [hstack]⟩))
  | _ => exact .inl (hkeeps.pc rfl)

/-! ## The flag register (10_state.md R17) -/

/-- A result with a flag leaves the flag in VF, whatever `x` is (10_state.md R18). -/
theorem readV_VF_writeWithFlag (x : Reg) (b : Byte) (c : Bool) (s : State) :
    (s.writeWithFlag x b (flagByte c)).readV VF = 0 ∨ (s.writeWithFlag x b (flagByte c)).readV VF = 1 := by
  rw [readV_writeWithFlag, if_pos rfl]
  exact flagByte_zero_or_one c

/-- Settles O25: each of the six leaves a condition's flag value in VF. -/
theorem flagsAreZeroOrOne : Obligations.FlagsAreZeroOrOne := by
  rintro i s t (⟨x, y, rfl | rfl | rfl | rfl | rfl⟩ | ⟨x, y, n, rfl⟩) h
  · cases h
    rw [carryFlag_eq]
    exact readV_VF_writeWithFlag _ _ _ _
  · cases h
    exact readV_VF_writeWithFlag _ _ _ _
  · cases h
    rw [shiftRightFlag_eq]
    exact readV_VF_writeWithFlag _ _ _ _
  · cases h
    exact readV_VF_writeWithFlag _ _ _ _
  · cases h
    rw [shiftLeftFlag_eq]
    exact readV_VF_writeWithFlag _ _ _ _
  · cases h
    rw [readV_writeV_same]
    exact flagByte_zero_or_one _

/-! ## The clock (10_state.md R30, 44_timers.md R96) -/

/-- The clock order reads the inputs and the two timers alone. -/
theorem ClockInv.of_eq (h : ClockInv s) (hinput : t.input = s.input) (hinputs : t.inputs = s.inputs)
    (hdelay : t.delay.startedAt = s.delay.startedAt ∨ t.delay.startedAt = s.input.now)
    (hsound : t.sound.startedAt = s.sound.startedAt ∨ t.sound.startedAt = s.input.now) : ClockInv t where
  ordered := by rw [hinput, hinputs]; exact h.ordered
  delayStarted := by
    rw [hinput]
    exact hdelay.elim (fun e => e ▸ h.delayStarted) le_of_eq
  soundStarted := by
    rw [hinput]
    exact hsound.elim (fun e => e ▸ h.soundStarted) le_of_eq

/-- No timer's start changes, except to the held clock value. -/
theorem exec_startedAt {i : Instr} (h : exec i s = .next t) :
    (t.delay.startedAt = s.delay.startedAt ∨ t.delay.startedAt = s.input.now) ∧
    (t.sound.startedAt = s.sound.startedAt ∨ t.sound.startedAt = s.input.now) := by
  have hkeeps := execChangesOnlyItsFootprint i s t h
  cases i with
  | ldFromDelay x =>
    have ht : t = s.delayRead.2.writeV x s.delayRead.1 := (Host.Outcome.next.inj h).symm
    rw [ht, delayRead_eq]
    exact ⟨.inl rfl, .inl rfl⟩
  | ldDelay x => cases h; exact ⟨.inr rfl, .inl rfl⟩
  | ldSound x => cases h; exact ⟨.inl rfl, .inr rfl⟩
  | _ => exact ⟨.inl (by rw [hkeeps.delay rfl]), .inl (by rw [hkeeps.sound rfl])⟩

theorem ClockInv.exec (h : ClockInv s) {i : Instr} (hexec : exec i s = .next t) : ClockInv t := by
  have hkeeps := execChangesOnlyItsFootprint i s t hexec
  obtain ⟨hdelay, hsound⟩ := exec_startedAt hexec
  exact h.of_eq hkeeps.input hkeeps.inputs hdelay hsound

/-- The inputs a step takes are no earlier than the held ones, and the host's later ones no earlier than those. -/
theorem ClockInv.held (h : ClockInv s) : ClockInv (s.takeInput.sample s.nextInput) := by
  have hnext : s.input.now ≤ s.nextInput.now ∧
      List.Pairwise (· ≤ ·) (s.nextInput.now :: s.inputs.tail.map StepInput.now) := by
    cases hinputs : s.inputs with
    | nil => exact ⟨(nextInput_nil s hinputs).1, List.pairwise_singleton _ _⟩
    | cons inp rest =>
      have hordered := h.ordered
      rw [hinputs, List.map_cons, List.pairwise_cons] at hordered
      rw [nextInput_cons s inp rest hinputs]
      exact ⟨hordered.1 _ List.mem_cons_self, hordered.2⟩
  exact ⟨hnext.2, h.delayStarted.trans hnext.1, h.soundStarted.trans hnext.1⟩

theorem ClockInv.runCycle (h : ClockInv s) (hrun : runCycle s = .next t) : ClockInv t := by
  rcases runCycle_cases s with ⟨-, hcase⟩ | ⟨-, -, hcase⟩ | ⟨_, _, _, -, -, -, -, -, hcase⟩ |
    ⟨_, _, i, -, -, -, -, -, hcase⟩
  case inr.inr.inr =>
    have hadvance : ClockInv s.advancePc := h.of_eq rfl rfl (.inl rfl) (.inl rfl)
    exact hadvance.exec (hcase.symm.trans hrun)
  all_goals
    cases hcase.symm.trans hrun
    exact h.of_eq rfl rfl (.inl rfl) (.inl rfl)

/-- Settles O20: the sampled clock is in order, and a cycle starts timers at it alone. -/
theorem stepKeepsTheClockOrder : Obligations.StepKeepsTheClockOrder := by
  intro s t h hstep
  rw [step_running s (running_of_step_next hstep)] at hstep
  exact h.held.runCycle hstep

end Sys2Proof.Safety
end

section
/-! PROOFS, 10_state.md: no instruction reads the diagnostic output (R27), and the random byte and the clock reach
only their readers (R30). Both are one fact: an instruction commutes with replacing what it does not read. -/

namespace Sys2Proof.Machine

variable {s : State}

/-- The state with other events in `diag` and other inputs held. -/
def State.withUnread (d : List DiagEvent) (inp : StepInput) (s : State) : State := { s with diag := d, input := inp }

/-- The inputs an instruction cannot tell from the held ones: CXNN reads the random byte, FX07, FX15 and FX18 the
clock (10_state.md R30). -/
def agreesOnRead (held inp : StepInput) : Instr → Prop
  | .rnd _ _ => inp.rand = held.rand
  | .ldFromDelay _ | .ldDelay _ | .ldSound _ => inp.now = held.now
  | _ => True

theorem agreesOnRead_refl (held : StepInput) (i : Instr) : agreesOnRead held held i := by
  cases i <;> simp [agreesOnRead]

theorem agreesOnRead_rand {i : Instr} (h : ∀ x nn, i ≠ .rnd x nn) (held : StepInput) (b : Byte) :
    agreesOnRead held { held with rand := b } i := by
  cases i with
  | rnd x nn => exact absurd rfl (h x nn)
  | _ => simp [agreesOnRead]

theorem agreesOnRead_now {i : Instr} (h : ∀ x, i ≠ .ldFromDelay x ∧ i ≠ .ldDelay x ∧ i ≠ .ldSound x)
    (held : StepInput) (now : Nat) : agreesOnRead held { held with now := now } i := by
  cases i with
  | ldFromDelay x => exact absurd rfl (h x).1
  | ldDelay x => exact absurd rfl (h x).2.1
  | ldSound x => exact absurd rfl (h x).2.2
  | _ => simp [agreesOnRead]

/-- `f` leads from `s` to a state, and with any events in `diag` and any inputs that satisfy `ok` held, to the same
state with one list of events appended and those inputs still held. -/
def Oblivious (ok : StepInput → Prop) (f : State → Result) (s : State) : Prop :=
  ∃ t new, f s = .next t ∧ ∀ d inp, ok inp → f (s.withUnread d inp) = .next (t.withUnread (d ++ new) inp)

/-- What logs nothing appends nothing. -/
theorem Oblivious.of_quiet {ok : StepInput → Prop} {f : State → Result} {t : State} (hf : f s = .next t)
    (h : ∀ d inp, ok inp → f (s.withUnread d inp) = .next (t.withUnread d inp)) : Oblivious ok f s :=
  ⟨t, [], hf, fun d inp hok => by rw [h d inp hok, List.append_nil]⟩

/-- The state an oblivious `f` leads to holds the same inputs, and the same events before the new ones. -/
theorem Oblivious.of_next {ok : StepInput → Prop} {f : State → Result} {t : State} (hf : Oblivious ok f s)
    (hok : ok s.input) (h : f s = .next t) : t.input = s.input ∧ ∃ new, t.diag = s.diag ++ new ∧
      ∀ d inp, ok inp → f (s.withUnread d inp) = .next (t.withUnread (d ++ new) inp) := by
  obtain ⟨u, new, hu, hcomm⟩ := hf
  cases hu.symm.trans h
  have hself : t = t.withUnread (s.diag ++ new) s.input :=
    Host.Outcome.next.inj (h.symm.trans (hcomm s.diag s.input hok))
  exact ⟨(congrArg State.input hself :), new, (congrArg State.diag hself :), hcomm⟩

/-! ## Memory and the display -/

theorem storeBytes_withUnread (bytes : List Byte) (a : Nat) (s : State) (d : List DiagEvent) (inp : StepInput) :
    (s.withUnread d inp).storeBytes a bytes =
      (s.storeBytes a bytes).withUnread (d ++ Safety.storeEvents s.params a bytes.length) inp := by
  induction bytes generalizing a s d with
  | nil => simp [State.storeBytes, Safety.storeEvents]
  | cons b rest ih =>
    have hwrite : (s.withUnread d inp).memWrite a b =
        (s.memWrite a b).withUnread (d ++ (writeReject s.params a).toList) inp := by
      rw [memWrite_eq, memWrite_eq]; rfl
    have hparams : (s.memWrite a b).params = s.params := by rw [memWrite_eq]
    rw [State.storeBytes, State.storeBytes, hwrite, ih, hparams, List.length_cons, storeEvents_succ, List.append_assoc]

theorem loadBytes_withUnread (rs : List Reg) (a : Nat) (s : State) (d : List DiagEvent) (inp : StepInput) :
    (s.withUnread d inp).loadBytes a rs =
      (s.loadBytes a rs).withUnread (d ++ Safety.readEvents s.params a rs.length) inp := by
  induction rs generalizing a s d with
  | nil => simp [State.loadBytes, Safety.readEvents]
  | cons r rest ih =>
    rw [loadBytes_cons, loadBytes_cons, List.length_cons, readEvents_succ, ← List.append_assoc]
    exact ih (a + 1) (State.writeV r _ { s with diag := s.diag ++ (readReject s.params a).toList }) _

/-- One row of a sprite that lies above the bottom edge: its byte is read and, where there is one, drawn. -/
def blitRow (x0 y0 r : Nat) (s : State) (collided : Bool) : State × Bool :=
  match s.byteAt (s.ea r) with
  | none => ({ s with diag := s.diag ++ (readReject s.params (s.ea r)).toList }, collided)
  | some b =>
    let drawn := blitColumns s.params x0 (y0 + r) b (List.range 8) (s.fb, collided)
    ({ s with diag := s.diag ++ (readReject s.params (s.ea r)).toList, fb := drawn.1 }, drawn.2)

/-- A blit ends at the first row past the bottom edge, and otherwise goes on after the row. -/
theorem blitRows_cons (x0 y0 r : Nat) (rest : List Nat) (s : State) (collided : Bool) :
    blitRows x0 y0 (r :: rest) (s, collided) =
      if s.params.displayH ≤ y0 + r then (s, collided) else blitRows x0 y0 rest (blitRow x0 y0 r s collided) := by
  rw [blitRows, memRead_eq, blitRow]
  cases s.byteAt (s.ea r) <;> rfl

theorem blitRow_withUnread (x0 y0 r : Nat) (s : State) (collided : Bool) (d : List DiagEvent) (inp : StepInput) :
    blitRow x0 y0 r (s.withUnread d inp) collided =
      ((blitRow x0 y0 r s collided).1.withUnread (d ++ (readReject s.params (s.ea r)).toList) inp,
        (blitRow x0 y0 r s collided).2) := by
  have hbyte : (s.withUnread d inp).byteAt ((s.withUnread d inp).ea r) = s.byteAt (s.ea r) := rfl
  rw [blitRow, blitRow, hbyte]
  cases s.byteAt (s.ea r) <;> rfl

theorem blitRows_withUnread (x0 y0 : Nat) (rows : List Nat) (s : State) (collided : Bool) :
    ∃ new, ∀ d inp, blitRows x0 y0 rows (s.withUnread d inp, collided) =
      ((blitRows x0 y0 rows (s, collided)).1.withUnread (d ++ new) inp, (blitRows x0 y0 rows (s, collided)).2) := by
  induction rows generalizing s collided with
  | nil => exact ⟨[], fun d inp => by simp [blitRows]⟩
  | cons r rest ih =>
    by_cases hclip : s.params.displayH ≤ y0 + r
    · refine ⟨[], fun d inp => ?_⟩
      rw [blitRows_cons, blitRows_cons, if_pos hclip, List.append_nil]
      exact if_pos hclip
    · obtain ⟨new, hrest⟩ := ih (blitRow x0 y0 r s collided).1 (blitRow x0 y0 r s collided).2
      refine ⟨(readReject s.params (s.ea r)).toList ++ new, fun d inp => ?_⟩
      rw [blitRows_cons, blitRows_cons, if_neg hclip, blitRow_withUnread, ← List.append_assoc]
      exact (if_neg hclip).trans (hrest _ inp)

theorem blit_withUnread (vx vy : Byte) (n : Nibble) (s : State) :
    ∃ new, ∀ d inp, blit vx vy n (s.withUnread d inp) =
      ((blit vx vy n s).1.withUnread (d ++ new) inp, (blit vx vy n s).2) :=
  blitRows_withUnread (vx.toNat % s.params.displayW) (vy.toNat % s.params.displayH) (List.range n.toNat) s false

/-! ## pc and the call stack -/

theorem skipIf_withUnread (c : Bool) (s : State) (d : List DiagEvent) (inp : StepInput) :
    (s.withUnread d inp).skipIf c = (s.skipIf c).withUnread d inp := by
  cases c <;> rfl

theorem execRet_of_nil (h : s.stack = []) : execRet s = .next (s.raiseFatal (.stackUnderflow s.instrAddr)) := by
  simp [execRet, State.pop, h, finish]

theorem execRet_of_append {rest : List Word} {w : Word} (h : s.stack = rest ++ [w]) :
    execRet s = .next (State.jump w { s with stack := rest }) := by
  rw [execRet, pop_append s rest w h]; rfl

theorem execCall_of_full (nnn : Addr12) (h : s.stack.length = s.params.stackDepth) :
    execCall nnn s = .next (s.raiseFatal (.stackOverflow s.instrAddr)) := by
  simp [execCall, State.push, h, finish]

theorem execCall_of_room (nnn : Addr12) (h : s.stack.length ≠ s.params.stackDepth) :
    execCall nnn s = .next (State.jump (zextAddr nnn) { s with stack := s.stack ++ [s.pc] }) := by
  simp [execCall, State.push, h, finish]

/-! ## Every instruction -/

theorem execRet_oblivious (ok : StepInput → Prop) (s : State) : Oblivious ok execRet s := by
  rcases execRet_cases s with ⟨hempty, hret⟩ | ⟨rest, w, hstack, hret⟩
  · exact .of_quiet hret fun _ _ _ => execRet_of_nil hempty
  · exact .of_quiet hret fun _ _ _ => execRet_of_append hstack

theorem execCall_oblivious (ok : StepInput → Prop) (nnn : Addr12) (s : State) : Oblivious ok (execCall nnn) s := by
  rcases execCall_cases nnn s with ⟨hfull, hcall⟩ | ⟨hroom, hcall⟩
  · exact .of_quiet hcall fun _ _ _ => execCall_of_full nnn hfull
  · exact .of_quiet hcall fun _ _ _ => execCall_of_room nnn hroom

theorem execDrw_oblivious (ok : StepInput → Prop) (x y : Reg) (n : Nibble) (s : State) :
    Oblivious ok (execDrw x y n) s := by
  obtain ⟨new, hblit⟩ := blit_withUnread (s.readV x) (s.readV y) n s
  refine ⟨_, new, rfl, fun d inp _ => ?_⟩
  have hdrawn : blit ((s.withUnread d inp).readV x) ((s.withUnread d inp).readV y) n (s.withUnread d inp) = _ :=
    hblit d inp
  rw [execDrw, hdrawn]
  rfl

theorem execLdFromDelay_oblivious (x : Reg) (s : State) :
    Oblivious (·.now = s.input.now) (execLdFromDelay x) s := by
  refine .of_quiet rfl fun d inp hnow => ?_
  rw [delayRead_eq, ← hnow, execLdFromDelay, delayRead_eq]; rfl

/-- Every instruction reads none of the events and only its own inputs. -/
theorem exec_oblivious (i : Instr) (s : State) : Oblivious (agreesOnRead s.input · i) (exec i) s := by
  cases i with
  | ret => exact execRet_oblivious _ s
  | call nnn => exact execCall_oblivious _ nnn s
  | drw x y n => exact execDrw_oblivious _ x y n s
  | ldFromDelay x => exact execLdFromDelay_oblivious x s
  | ldBcd x =>
    exact ⟨_, _, rfl, fun d inp _ => congrArg Host.Outcome.next
      (storeBytes_withUnread (bcdDigits s.params.bcdMode (s.readV x)) (s.ea 0) s d inp)⟩
  | storeRegs x =>
    exact ⟨_, _, rfl, fun d inp _ => congrArg Host.Outcome.next
      (storeBytes_withUnread ((regsUpTo x).map s.readV) (s.ea 0) s d inp)⟩
  | loadRegs x =>
    exact ⟨_, _, rfl, fun d inp _ => congrArg Host.Outcome.next
      (loadBytes_withUnread (regsUpTo x) (s.ea 0) s d inp)⟩
  | seByte _ _ | sneByte _ _ | seReg _ _ | sneReg _ _ =>
    exact .of_quiet rfl fun d inp _ => congrArg Host.Outcome.next (skipIf_withUnread _ s d inp)
  | rnd _ _ | ldDelay _ | ldSound _ => exact .of_quiet rfl fun d inp hread => by rw [← hread]; rfl
  | cls | jp _ | ldByte _ _ | addByte _ _ | ldReg _ _ | orReg _ _ | andReg _ _ | xorReg _ _ | addReg _ _ | subReg _ _
  | shr _ _ | subnReg _ _ | shl _ _ | ldI _ | addI _ | ldFont _ | skp _ | sknp _ | ldKey _ =>
    exact .of_quiet rfl fun _ _ _ => rfl

/-- Settles O27: with `diag` as it is, an input the instruction does not read may be any. -/
theorem inputsReachOnlyTheirReaders : Obligations.InputsReachOnlyTheirReaders := by
  intro i s t h
  obtain ⟨hinput, new, hdiag, hcomm⟩ := (exec_oblivious i s).of_next (agreesOnRead_refl _ i) h
  have hswap : ∀ inp, agreesOnRead s.input inp i →
      exec i { s with input := inp } = .next { t with input := inp } := fun inp hread => by
    simpa only [State.withUnread, ← hdiag] using hcomm s.diag inp hread
  rw [hinput]
  exact ⟨fun hrnd b => hswap _ (agreesOnRead_rand hrnd _ b),
    fun htimer now => hswap _ (agreesOnRead_now htimer _ now)⟩

/-! ## The step -/

theorem runCycle_of_stop (hstop : s.input.stop = true) : runCycle s = .next (s.raiseFatal (.stopped s.pc)) := by
  simp [runCycle, hstop]

theorem runCycle_of_outOfRange (hstop : s.input.stop = false) (hrange : s.params.memSize ≤ s.pc.toNat + 1) :
    runCycle s = .next (s.raiseFatal (.fetchOutOfRange s.pc)) := by
  simp [runCycle, State.fetch, hstop, hrange]

theorem runCycle_of_decode_error {e : DecodeError} (hstop : s.input.stop = false)
    (hrange : s.pc.toNat + 1 < s.params.memSize)
    (hdecode : decode (wordOfBytes (Memory.read s.params s.mem s.pc.toNat)
      (Memory.read s.params s.mem (s.pc.toNat + 1))) = .error e) :
    runCycle s = .next (s.advancePc.raiseFatal (decodeFailureAt s.pc
      (Memory.read s.params s.mem s.pc.toNat) (Memory.read s.params s.mem (s.pc.toNat + 1)))) := by
  simp [runCycle, State.fetch, hstop, Nat.not_le.mpr hrange, hdecode]

theorem runCycle_of_decode_ok {i : Instr} (hstop : s.input.stop = false)
    (hrange : s.pc.toNat + 1 < s.params.memSize)
    (hdecode : decode (wordOfBytes (Memory.read s.params s.mem s.pc.toNat)
      (Memory.read s.params s.mem (s.pc.toNat + 1))) = .ok i) :
    runCycle s = exec i s.advancePc := by
  simp [runCycle, State.fetch, hstop, Nat.not_le.mpr hrange, hdecode]

/-- A cycle on the same inputs reads none of the events. -/
theorem runCycle_oblivious (s : State) : Oblivious (· = s.input) runCycle s := by
  rcases runCycle_cases s with ⟨hstop, hrun⟩ | ⟨hstop, hrange, hrun⟩ |
    ⟨_, _, e, hstop, hrange, rfl, rfl, hdecode, hrun⟩ | ⟨_, _, i, hstop, hrange, rfl, rfl, hdecode, hrun⟩
  · refine .of_quiet hrun ?_
    rintro d _ rfl
    exact runCycle_of_stop hstop
  · refine .of_quiet hrun ?_
    rintro d _ rfl
    exact runCycle_of_outOfRange hstop hrange
  · refine .of_quiet hrun ?_
    rintro d _ rfl
    exact runCycle_of_decode_error hstop hrange hdecode
  · obtain ⟨t, new, hexec, hcomm⟩ := exec_oblivious i s.advancePc
    refine ⟨t, new, hrun.trans hexec, ?_⟩
    rintro d _ rfl
    exact (runCycle_of_decode_ok (s := s.withUnread d s.input) hstop hrange hdecode).trans
      (hcomm d s.input (agreesOnRead_refl _ i))

/-- Settles O26: the events choose neither the step's inputs nor what its cycle does. -/
theorem diagIsAppendOnlyAndNeverRead : Obligations.DiagIsAppendOnlyAndNeverRead := by
  intro s t h
  have hrunning := running_of_step_next h
  rw [step_running s hrunning] at h
  obtain ⟨hinput, new, hdiag, hcomm⟩ := (runCycle_oblivious _).of_next rfl h
  refine ⟨new, hdiag, fun d => ?_⟩
  have ht : t.withUnread (d ++ new) (s.takeInput.sample s.nextInput).input = { t with diag := d ++ new } := by
    rw [← hinput, State.withUnread]
  rw [step_running { s with diag := d } hrunning, ← ht]
  exact hcomm d _ rfl

end Sys2Proof.Machine
end

section
/-! PROOFS, 20_memory.md: equal memories are equal data, data accesses follow the bounds policy, the protected font
cannot change, and what is stored is what is fetched. -/

namespace Sys2Proof.Machine.Memory

variable {p : Params}

/-! ## The canonical form determines the memory (R32, R46) -/

theorem read_cons (a b : Nat) (v : Byte) (m : Memory) :
    read p ((a, v) :: m) b = if b = a then v else read p m b := rfl

theorem wfFrom_cons {lo a : Nat} {v : Byte} {m : Memory} :
    wfFrom p lo ((a, v) :: m) = true ↔ lo ≤ a ∧ v ≠ background p a ∧ wfFrom p (a + 1) m = true := by
  simp [wfFrom, and_assoc]

/-- Canonical memory lists nothing below its lower end. -/
theorem read_of_lt {lo b : Nat} {m : Memory} (hm : wfFrom p lo m = true) (hb : b < lo) :
    read p m b = background p b := by
  induction m generalizing lo with
  | nil => rfl
  | cons c rest ih =>
    obtain ⟨a, v⟩ := c
    obtain ⟨hlo, -, hrest⟩ := wfFrom_cons.mp hm
    rw [read_cons, if_neg (by omega), ih hrest (by omega)]

/-- The first cell of canonical memory shows at its address: canonical memory that reads alike cannot start above. -/
theorem not_lt_of_read_eq {lo hi a : Nat} {v : Byte} {m n : Memory} (hm : wfFrom p lo ((a, v) :: m) = true)
    (hn : wfFrom p hi n = true) (heq : ∀ x, read p ((a, v) :: m) x = read p n x) : ¬ a < hi := by
  intro hlt
  obtain ⟨-, hv, -⟩ := wfFrom_cons.mp hm
  have hread : v = background p a := by
    rw [← read_of_lt hn hlt, ← heq a, read_cons, if_pos rfl]
  exact hv hread

/-- Memories canonical from one lower end up that read alike are equal: neither can start below the other, and past
the shared first cell their tails read alike. -/
theorem eq_of_read_eq {lo : Nat} {m n : Memory} (hm : wfFrom p lo m = true) (hn : wfFrom p lo n = true)
    (heq : ∀ x, read p m x = read p n x) : m = n := by
  induction m generalizing lo n with
  | nil =>
    cases n with
    | nil => rfl
    | cons d ns =>
      obtain ⟨b, w⟩ := d
      exact absurd b.lt_succ_self (not_lt_of_read_eq hn (hi := b + 1) rfl fun x => (heq x).symm)
  | cons c ms ih =>
    obtain ⟨a, v⟩ := c
    cases n with
    | nil => exact absurd a.lt_succ_self (not_lt_of_read_eq hm (hi := a + 1) rfl heq)
    | cons d ns =>
      obtain ⟨b, w⟩ := d
      obtain ⟨-, hv, hms⟩ := wfFrom_cons.mp hm
      obtain ⟨-, hw, hns⟩ := wfFrom_cons.mp hn
      have hab : ¬ a < b := not_lt_of_read_eq hm (wfFrom_cons.mpr ⟨le_rfl, hw, hns⟩) heq
      have hba : ¬ b < a := not_lt_of_read_eq hn (wfFrom_cons.mpr ⟨le_rfl, hv, hms⟩) fun x => (heq x).symm
      obtain rfl : a = b := by omega
      obtain rfl : v = w := by simpa [read_cons] using heq a
      have htail : ∀ x, read p ms x = read p ns x := fun x => by
        by_cases hx : x = a
        · rw [read_of_lt hms (by omega), read_of_lt hns (by omega)]
        · simpa [read_cons, hx] using heq x
      rw [ih hms hns htail]

/-- Settles O22: cell by cell, from the lowest address up. -/
theorem canonicalMemoryIsUnique : Obligations.CanonicalMemoryIsUnique :=
  fun _ _ _ hm hn heq => eq_of_read_eq hm hn heq

end Sys2Proof.Machine.Memory

namespace Sys2Proof.Machine

open Sys2Proof.Safety

variable {s t : State} {a : Nat}

/-! ## Which accesses are skipped (R38, R43, R44) -/

theorem inFont_iff {p : Params} : inFont p a = true ↔ p.fontBase ≤ a ∧ a < p.fontBase + 80 := by
  simp [inFont]

theorem writeReject_of_le {p : Params} (ha : p.memSize ≤ a) : writeReject p a = some (.outOfRangeWrite a) :=
  if_pos ha

theorem writeReject_of_protected {p : Params} (ha : a < p.memSize) (hw : p.fontWritable = false)
    (hf : inFont p a = true) : writeReject p a = some (.readOnlyWrite a) := by
  simp [writeReject, hw, hf, ha]

theorem writeReject_of_writable {p : Params} (ha : a < p.memSize) (hw : p.fontWritable = true ∨ inFont p a = false) :
    writeReject p a = none := by
  rcases hw with hw | hf
  · simp [writeReject, hw, ha]
  · simp [writeReject, hf, ha]

/-! ## One data access -/

theorem byteAt_of_lt (ha : a < s.params.memSize) : s.byteAt a = some (Memory.read s.params s.mem a) := if_pos ha

/-- A skipped write logs its event and does nothing else. -/
theorem memWrite_of_reject {e : DiagEvent} (he : writeReject s.params a = some e) (b : Byte) :
    s.memWrite a b = { s with diag := s.diag ++ [e] } := by
  simp [memWrite_eq, he]

/-- An accepted write changes memory alone. -/
theorem memWrite_of_accept (ha : writeReject s.params a = none) (b : Byte) :
    s.memWrite a b = { s with mem := Memory.write s.params s.mem a b } := by
  simp [memWrite_eq, ha]

theorem byteAt_memWrite_of_accept (ha : writeReject s.params a = none) (b : Byte) :
    (s.memWrite a b).byteAt a = some b := by
  simp [byteAt_memWrite, ha]

theorem byteAt_memWrite_other {c : Nat} (hc : c ≠ a) (b : Byte) : (s.memWrite a b).byteAt c = s.byteAt c := by
  simp [byteAt_memWrite, hc]

theorem memRead_of_le (ha : s.params.memSize ≤ a) :
    s.memRead a = (none, { s with diag := s.diag ++ [.outOfRangeRead a] }) := by
  simp [memRead_eq, readReject, (byteAt_eq_none_iff s a).mpr ha, ha]

/-- A read of an address that exists gives its byte and changes nothing. -/
theorem memRead_of_lt (ha : a < s.params.memSize) : ∃ c, s.byteAt a = some c ∧ s.memRead a = (some c, s) :=
  ⟨_, byteAt_of_lt ha, by simp [memRead_eq, readReject, byteAt_of_lt ha, Nat.not_le.mpr ha]⟩

/-- Settles O42: each clause is one outcome of the access's check. -/
theorem dataAccessesFollowTheBoundsPolicy : Obligations.DataAccessesFollowTheBoundsPolicy := by
  intro s a b
  refine ⟨fun ha => ⟨memRead_of_le ha, memWrite_of_reject (writeReject_of_le ha) b⟩, memRead_of_lt, ?_, ?_⟩
  · intro ha hw hlo hhi
    exact memWrite_of_reject (writeReject_of_protected ha hw (inFont_iff.mpr ⟨hlo, hhi⟩)) b
  · intro ha hwritable
    have haccept : writeReject s.params a = none :=
      writeReject_of_writable ha (hwritable.imp_right fun hf => Bool.eq_false_iff.mpr (mt inFont_iff.mp hf))
    exact ⟨byteAt_memWrite_of_accept haccept b, fun _ hc => byteAt_memWrite_other hc b, _,
      memWrite_of_accept haccept b⟩

/-! ## The protected font (R38) -/

/-- Only FX33 and FX55 store, and a store leaves the protected font alone. -/
theorem byteAt_exec_of_inFont {i : Instr} (hw : s.params.fontWritable = false) (ha : inFont s.params a = true)
    (hexec : exec i s = .next t) : t.byteAt a = s.byteAt a := by
  have hkeeps := (execChangesOnlyItsFootprint i s t hexec).mem a
  cases i with
  | ldBcd _ | storeRegs _ =>
    cases hexec
    exact byteAt_storeBytes_of_inFont _ _ hw ha
  | _ => exact hkeeps List.not_mem_nil

theorem byteAt_runCycle_of_inFont (hw : s.params.fontWritable = false) (ha : inFont s.params a = true)
    (hcycle : runCycle s = .next t) : t.byteAt a = s.byteAt a := by
  rcases runCycle_cases s with ⟨-, hrun⟩ | ⟨-, -, hrun⟩ | ⟨_, _, _, -, -, -, -, -, hrun⟩ |
    ⟨_, _, i, -, -, -, -, -, hrun⟩ <;> rw [hrun] at hcycle
  · cases hcycle; rfl
  · cases hcycle; rfl
  · cases hcycle; rfl
  · exact byteAt_exec_of_inFont (s := s.advancePc) hw ha hcycle

/-- Settles O21: the step by its cycle, the accesses by their checks. -/
theorem fontRegionIsImmutable : Obligations.FontRegionIsImmutable := by
  intro s a b hlo hhi ha
  have hf : inFont s.params a = true := inFont_iff.mpr ⟨hlo, hhi⟩
  refine ⟨fun hw t hstep => ?_, fun hw => memWrite_of_reject (writeReject_of_protected ha hw hf) b, fun hw => ?_,
    memRead_of_lt ha⟩
  · rw [step_running s (running_of_step_next hstep)] at hstep
    exact byteAt_runCycle_of_inFont (s := s.takeInput.sample s.nextInput) hw hf hstep
  · have haccept := writeReject_of_writable ha (.inl hw)
    exact ⟨byteAt_memWrite_of_accept haccept b, by rw [memWrite_of_accept haccept]⟩

/-! ## What is stored is what is fetched next (R46, R49) -/

@[simp] theorem storeBytes_pc (bytes : List Byte) (a : Nat) (s : State) : (s.storeBytes a bytes).pc = s.pc := by
  obtain ⟨m, hm⟩ := storeBytes_frame bytes a s
  rw [hm]

@[simp] theorem storeBytes_params (bytes : List Byte) (a : Nat) (s : State) :
    (s.storeBytes a bytes).params = s.params := by
  obtain ⟨m, hm⟩ := storeBytes_frame bytes a s
  rw [hm]

theorem byteAt_storeBytes_ea (bytes : List Byte) (a : Nat) (s : State) :
    (s.storeBytes (s.ea 0) bytes).byteAt a = byteAfterStore s bytes a :=
  byteAt_storeBytes bytes (s.ea 0) a s

/-- A fetch in range reads memory as `byteAt` does. -/
theorem fetch_of_lt (h : s.pc.toNat + 1 < s.params.memSize) :
    ∃ b1 b2, s.byteAt s.pc.toNat = some b1 ∧ s.byteAt (s.pc.toNat + 1) = some b2 ∧
      s.fetch = .ok (s.pc, b1, b2, s.advancePc) :=
  ⟨_, _, byteAt_of_lt (Nat.lt_of_succ_lt h), byteAt_of_lt h, if_neg (Nat.not_le.mpr h)⟩

/-- The fetch after a store from `I` up reads what the store leaves. -/
theorem fetch_storeBytes (bytes : List Byte) (h : s.pc.toNat + 1 < s.params.memSize) :
    ∃ b1 b2, byteAfterStore s bytes s.pc.toNat = some b1 ∧ byteAfterStore s bytes (s.pc.toNat + 1) = some b2 ∧
      (s.storeBytes (s.ea 0) bytes).fetch = .ok (s.pc, b1, b2, (s.storeBytes (s.ea 0) bytes).advancePc) := by
  have hfetch := fetch_of_lt (s := s.storeBytes (s.ea 0) bytes) (by simpa using h)
  simpa only [storeBytes_pc, byteAt_storeBytes_ea] using hfetch

/-- Settles O46: each of the two instructions is one store from `I` up. -/
theorem storedBytesAreFetchedNext : Obligations.StoredBytesAreFetchedNext := by
  intro i x bytes s t hi hrange hexec
  have hstore : t = s.storeBytes (s.ea 0) bytes := by
    rcases hi with ⟨rfl, rfl⟩ | ⟨rfl, rfl⟩
    · cases hexec; rfl
    · cases hexec; rfl
  rw [hstore]
  exact fetch_storeBytes bytes hrange

end Sys2Proof.Machine
end

section
/-! PROOFS, 30_encoding.md: the decoder, the encoder and the opcode table agree, and the fetch. -/

namespace Sys2Proof

/-! ## A word is its four nibbles (R53, R54) -/

theorem byteOfNibbles_nib1_nib2 (w : Word) : byteOfNibbles (nib1 w) (nib2 w) = highByte w := by
  apply BitVec.eq_of_getLsbD_eq; intro k hk
  by_cases h : k < 4
  · simp [byteOfNibbles, nib1, nib2, highByte, h, hk]
  · have h1 : k - 4 < 4 := by omega
    have h12 : 12 + (k - 4) = 8 + k := by omega
    simp [byteOfNibbles, nib1, nib2, highByte, h, h1, h12, hk]

theorem byteOfNibbles_nib3_nib4 (w : Word) : byteOfNibbles (nib3 w) (nib4 w) = fieldNN w := by
  apply BitVec.eq_of_getLsbD_eq; intro k hk
  by_cases h : k < 4
  · simp [byteOfNibbles, nib3, nib4, fieldNN, h, hk]
  · have h1 : k - 4 < 4 := by omega
    have h4 : 4 + (k - 4) = k := by omega
    simp [byteOfNibbles, nib3, nib4, fieldNN, h, h1, h4, hk]

/-- The word of its own fields, in format A. -/
theorem encA_fields (w : Word) : encA (nib1 w) (fieldNNN w) = w := by
  apply BitVec.eq_of_getLsbD_eq; intro k hk
  by_cases h : k < 12
  · simp [encA, nib1, fieldNNN, h, hk]
  · have h1 : k - 12 < 4 := by omega
    have h12 : 12 + (k - 12) = k := by omega
    simp [encA, nib1, fieldNNN, h, h1, h12, hk]

/-- The word of its own fields, in format XNN. -/
theorem encXNN_fields (w : Word) : encXNN (nib1 w) (fieldX w) (fieldNN w) = w := by
  simp [encXNN, fieldX, byteOfNibbles_nib1_nib2]

/-- The word of its own fields, in format XY. -/
theorem encXY_fields (w : Word) : encXY (nib1 w) (fieldX w) (fieldY w) (nib4 w) = w := by
  simp [encXY, fieldX, fieldY, byteOfNibbles_nib1_nib2, byteOfNibbles_nib3_nib4]

/-! ## Decoding what is encoded (R56) -/

/-- The decoder reads the class from the first nibble, the function from the last or from the second byte, and the
operands from the fields the format puts them in. -/
theorem decode_encode (i : Instr) : decode (encode i) = .ok i := by
  cases i with
  | cls | ret => rfl
  | jp _ | call _ | ldI _ | seByte _ _ | sneByte _ _ | ldByte _ _ | addByte _ _ | rnd _ _
  | seReg _ _ | sneReg _ _ | drw _ _ _ => simp [encode, decode]
  | ldReg _ _ | orReg _ _ | andReg _ _ | xorReg _ _ | addReg _ _ | subReg _ _ | shr _ _ | subnReg _ _ | shl _ _ =>
    simp [encode, decode, decodeClass8]
  | skp _ | sknp _ => simp [encode, decode, decodeClassE]
  | ldFromDelay _ | ldKey _ | ldDelay _ | ldSound _ | addI _ | ldFont _ | ldBcd _ | storeRegs _ | loadRegs _ =>
    simp [encode, decode, decodeClassF]

/-- The decoder takes an instruction's two bytes and leaves what follows. -/
theorem decodeBytes_encodeBytes (i : Instr) (rest : List Byte) :
    decodeBytes (encodeBytes i ++ rest) = .ok (i, rest) := by
  simp [encodeBytes, decodeBytes, decode_encode]

/-- Settles O2, by the instruction's format. -/
theorem decodeOfEncodeIsTheInstruction : Obligations.DecodeOfEncodeIsTheInstruction :=
  fun i rest => ⟨decode_encode i, decodeBytes_encodeBytes i rest⟩

/-! ## Encoding what is decoded (R57, R59) -/

/-- What a decoder of the word `w` may answer: an instruction whose word is `w`, or the decode failure of `w`. -/
def AnswersFor (w : Word) : Except DecodeError Instr → Prop
  | .ok i => encode i = w
  | .error e => e = .noPattern w

section
variable {w : Word} {op f : Nibble} {nn : Byte}

theorem encA_of_class (hop : (nib1 w).toNat = op.toNat) : encA op (fieldNNN w) = w := by
  rw [← BitVec.eq_of_toNat_eq hop, encA_fields]

theorem encXNN_of_fields (hop : (nib1 w).toNat = op.toNat) (hnn : (fieldNN w).toNat = nn.toNat) :
    encXNN op (fieldX w) nn = w := by
  rw [← BitVec.eq_of_toNat_eq hop, ← BitVec.eq_of_toNat_eq hnn, encXNN_fields]

theorem encXY_of_fields (hop : (nib1 w).toNat = op.toNat) (hf : (nib4 w).toNat = f.toNat) :
    encXY op (fieldX w) (fieldY w) f = w := by
  rw [← BitVec.eq_of_toNat_eq hop, ← BitVec.eq_of_toNat_eq hf, encXY_fields]

end

theorem decodeClass0_answers (w : Word) : AnswersFor w (decodeClass0 w) := by
  unfold decodeClass0
  split
  next h => exact h.symm
  next =>
    split
    next h => exact h.symm
    next => rfl

theorem decodeClass8_answers {w : Word} (hop : (nib1 w).toNat = 0x8) : AnswersFor w (decodeClass8 w) := by
  unfold decodeClass8
  split
  case h_10 => rfl
  all_goals next hf => exact encXY_of_fields hop hf

theorem decodeClassE_answers {w : Word} (hop : (nib1 w).toNat = 0xE) : AnswersFor w (decodeClassE w) := by
  unfold decodeClassE
  split
  case h_3 => rfl
  all_goals next hnn => exact encXNN_of_fields hop hnn

theorem decodeClassF_answers {w : Word} (hop : (nib1 w).toNat = 0xF) : AnswersFor w (decodeClassF w) := by
  unfold decodeClassF
  split
  case h_10 => rfl
  all_goals next hnn => exact encXNN_of_fields hop hnn

/-- Classes 5 and 9: one function, whose selector is 0. -/
theorem selectorZero_answers {w : Word} {op : Nibble} {i : Instr} (hop : (nib1 w).toNat = op.toNat)
    (hi : encode i = encXY op (fieldX w) (fieldY w) 0) :
    AnswersFor w (if nib4 w = 0#4 then .ok i else .error (.noPattern w)) := by
  split
  next hf => exact hi.trans (encXY_of_fields hop (congrArg BitVec.toNat hf))
  next => rfl

/-- The decoder answers an instruction whose word is the one it read, or that word's decode failure. The case of
class `n` is `h_(n + 1)`. -/
theorem decode_answers (w : Word) : AnswersFor w (decode w) := by
  unfold decode
  split
  case h_1 => exact decodeClass0_answers w
  case h_2 hop | h_3 hop | h_11 hop => exact encA_of_class hop
  case h_4 hop | h_5 hop | h_7 hop | h_8 hop | h_13 hop => exact encXNN_of_fields hop rfl
  case h_6 hop => exact selectorZero_answers (op := 0x5) hop rfl
  case h_10 hop => exact selectorZero_answers (op := 0x9) hop rfl
  case h_9 hop => exact decodeClass8_answers hop
  case h_14 hop => exact encXY_of_fields hop rfl
  case h_15 hop => exact decodeClassE_answers hop
  case h_16 hop => exact decodeClassF_answers hop
  case h_12 | h_17 => rfl

theorem encode_of_decode {w : Word} {i : Instr} (h : decode w = .ok i) : encode i = w := by
  simpa [h, AnswersFor] using decode_answers w

theorem eq_noPattern_of_decode {w : Word} {e : DecodeError} (h : decode w = .error e) : e = .noPattern w := by
  simpa [h, AnswersFor] using decode_answers w

/-- Settles O3: an answer of the decoder is an instruction whose word it read. -/
theorem encodeOfDecodeIsTheWord : Obligations.EncodeOfDecodeIsTheWord :=
  fun _ _ => encode_of_decode

/-! ## The opcode table (R57) -/

/-- The bits an instruction's format fixes: all but its operands. -/
def Instr.mask : Instr → Word
  | .cls | .ret => 0xFFFF
  | .jp _ | .call _ | .ldI _ | .seByte _ _ | .sneByte _ _ | .ldByte _ _ | .addByte _ _ | .rnd _ _
  | .drw _ _ _ => 0xF000
  | .seReg _ _ | .sneReg _ _ | .ldReg _ _ | .orReg _ _ | .andReg _ _ | .xorReg _ _ | .addReg _ _ | .subReg _ _
  | .shr _ _ | .subnReg _ _ | .shl _ _ => 0xF00F
  | .skp _ | .sknp _ | .ldFromDelay _ | .ldKey _ | .ldDelay _ | .ldSound _ | .addI _ | .ldFont _ | .ldBcd _
  | .storeRegs _ | .loadRegs _ => 0xF0FF

/-- The row of an instruction: its mnemonic, and its encoding with the operands masked out. -/
def Instr.row (i : Instr) : OpcodeRow := ⟨i.mnemonic, i.mask, encode i &&& i.mask⟩

theorem row_covers_iff (i : Instr) (w : Word) : i.row.covers w = true ↔ w &&& i.mask = encode i &&& i.mask := by
  simp [Instr.row, OpcodeRow.covers]

theorem row_covers_encode (i : Instr) : i.row.covers (encode i) = true := (row_covers_iff i _).mpr rfl

/-! ### What each mask keeps of a word: the class, and the function where the format has one -/

theorem and_classMask (w : Word) : w &&& 0xF000 = encA (nib1 w) 0 := by
  have hop : nib1 (w &&& 0xF000) = nib1 w := BitVec.extractLsb'_and.trans BitVec.and_allOnes
  have hnnn : fieldNNN (w &&& 0xF000) = 0 := BitVec.extractLsb'_and.trans BitVec.and_zero
  rw [← encA_fields (w &&& 0xF000), hop, hnnn]

theorem and_selectorMask (w : Word) : w &&& 0xF00F = encXY (nib1 w) 0 0 (nib4 w) := by
  have hop : nib1 (w &&& 0xF00F) = nib1 w := BitVec.extractLsb'_and.trans BitVec.and_allOnes
  have hx : nib2 (w &&& 0xF00F) = 0 := BitVec.extractLsb'_and.trans BitVec.and_zero
  have hy : nib3 (w &&& 0xF00F) = 0 := BitVec.extractLsb'_and.trans BitVec.and_zero
  have hf : nib4 (w &&& 0xF00F) = nib4 w := BitVec.extractLsb'_and.trans BitVec.and_allOnes
  rw [← encXY_fields (w &&& 0xF00F), fieldX, fieldY, hop, hx, hy, hf]
  rfl

theorem and_byteMask (w : Word) : w &&& 0xF0FF = encXNN (nib1 w) 0 (fieldNN w) := by
  have hop : nib1 (w &&& 0xF0FF) = nib1 w := BitVec.extractLsb'_and.trans BitVec.and_allOnes
  have hx : nib2 (w &&& 0xF0FF) = 0 := BitVec.extractLsb'_and.trans BitVec.and_zero
  have hnn : fieldNN (w &&& 0xF0FF) = fieldNN w := BitVec.extractLsb'_and.trans BitVec.and_allOnes
  rw [← encXNN_fields (w &&& 0xF0FF), fieldX, hop, hx, hnn]
  rfl

section
variable {v w : Word}

theorem nib1_eq_of_classMask (h : v &&& 0xF000 = w &&& 0xF000) : nib1 v = nib1 w := by
  rw [and_classMask, and_classMask] at h
  simpa using congrArg nib1 h

theorem fields_eq_of_selectorMask (h : v &&& 0xF00F = w &&& 0xF00F) : nib1 v = nib1 w ∧ nib4 v = nib4 w := by
  rw [and_selectorMask, and_selectorMask] at h
  exact ⟨by simpa using congrArg nib1 h, by simpa using congrArg nib4 h⟩

theorem fields_eq_of_byteMask (h : v &&& 0xF0FF = w &&& 0xF0FF) : nib1 v = nib1 w ∧ fieldNN v = fieldNN w := by
  rw [and_byteMask, and_byteMask] at h
  exact ⟨by simpa using congrArg nib1 h, by simpa using congrArg fieldNN h⟩

end

/-! ### The rows of the instructions are the rows of the table -/

theorem row_mem_opcodeTable (i : Instr) : i.row ∈ opcodeTable := by
  cases i with
  | cls | ret => decide
  | jp _ | call _ | ldI _ | seByte _ _ | sneByte _ _ | ldByte _ _ | addByte _ _ | rnd _ _ | drw _ _ _ =>
    simp only [Instr.row, Instr.mnemonic, Instr.mask, and_classMask, encode, nib1_encA, nib1_encXNN, nib1_encXY]
    decide
  | seReg _ _ | sneReg _ _ | ldReg _ _ | orReg _ _ | andReg _ _ | xorReg _ _ | addReg _ _ | subReg _ _
  | shr _ _ | subnReg _ _ | shl _ _ =>
    simp only [Instr.row, Instr.mnemonic, Instr.mask, and_selectorMask, encode, nib1_encXY, nib4_encXY]
    decide
  | skp _ | sknp _ | ldFromDelay _ | ldKey _ | ldDelay _ | ldSound _ | addI _ | ldFont _ | ldBcd _
  | storeRegs _ | loadRegs _ =>
    simp only [Instr.row, Instr.mnemonic, Instr.mask, and_byteMask, encode, nib1_encXNN, fieldNN_encXNN]
    decide

/-- Each row of the table is the row of the instruction its pattern decodes to. -/
theorem opcodeTable_eq_rows :
    opcodeTable.map .ok = opcodeTable.map fun row => (decode row.pattern).map Instr.row := by decide

theorem exists_row_eq {row : OpcodeRow} (h : row ∈ opcodeTable) : ∃ i : Instr, i.row = row := by
  have hrow : Except.ok row = (decode row.pattern).map Instr.row := List.map_inj_left.mp opcodeTable_eq_rows row h
  cases hd : decode row.pattern with
  | ok i => exact ⟨i, by simpa [hd, Except.map] using hrow.symm⟩
  | error e => simp [hd, Except.map] at hrow

/-- A word that keeps what an instruction's format fixes decodes by the same branch. -/
theorem exists_decode_of_row_covers {i : Instr} {w : Word} (h : i.row.covers w = true) :
    ∃ j, decode w = .ok j ∧ j.mnemonic = i.mnemonic ∧ j.mask = i.mask := by
  rw [row_covers_iff] at h
  cases i with
  | cls | ret =>
    have hw : w = _ := BitVec.and_allOnes.symm.trans (h.trans BitVec.and_allOnes)
    exact ⟨_, hw ▸ decode_encode _, rfl, rfl⟩
  | jp _ | call _ | ldI _ | seByte _ _ | sneByte _ _ | ldByte _ _ | addByte _ _ | rnd _ _ | drw _ _ _ =>
    have hop := nib1_eq_of_classMask h
    simp only [encode, nib1_encA, nib1_encXNN, nib1_encXY] at hop
    rw [decode, hop]
    exact ⟨_, rfl, rfl, rfl⟩
  | seReg _ _ | sneReg _ _ | ldReg _ _ | orReg _ _ | andReg _ _ | xorReg _ _ | addReg _ _ | subReg _ _
  | shr _ _ | subnReg _ _ | shl _ _ =>
    obtain ⟨hop, hf⟩ := fields_eq_of_selectorMask h
    simp only [encode, nib1_encXY, nib4_encXY] at hop hf
    rw [decode, decodeClass8, hop, hf]
    exact ⟨_, rfl, rfl, rfl⟩
  | skp _ | sknp _ | ldFromDelay _ | ldKey _ | ldDelay _ | ldSound _ | addI _ | ldFont _ | ldBcd _
  | storeRegs _ | loadRegs _ =>
    obtain ⟨hop, hnn⟩ := fields_eq_of_byteMask h
    simp only [encode, nib1_encXNN, fieldNN_encXNN] at hop hnn
    rw [decode, decodeClassE, decodeClassF, hop, hnn]
    exact ⟨_, rfl, rfl, rfl⟩

/-- A word is covered by an instruction's row exactly when it decodes to an instruction of that row. -/
theorem row_covers_iff_decode (i : Instr) (w : Word) :
    i.row.covers w = true ↔ ∃ j, decode w = .ok j ∧ j.row = i.row := by
  constructor
  · intro h
    obtain ⟨j, hj, hname, hmask⟩ := exists_decode_of_row_covers h
    have hfixed : encode j &&& j.mask = encode i &&& i.mask := by
      rw [encode_of_decode hj, hmask, (row_covers_iff i w).mp h]
    exact ⟨j, hj, by rw [Instr.row, hname, hfixed, hmask, ← Instr.row]⟩
  · rintro ⟨j, hj, hrow⟩
    rw [← hrow, ← encode_of_decode hj]
    exact row_covers_encode j

/-- The table says what decodes to what: the instruction of a covered word is one of the covering row. -/
theorem covers_iff_decode {row : OpcodeRow} (h : row ∈ opcodeTable) (w : Word) :
    row.covers w = true ↔ ∃ i, decode w = .ok i ∧ i.row = row := by
  obtain ⟨i, rfl⟩ := exists_row_eq h
  exact row_covers_iff_decode i w

theorem decode_of_not_covered {w : Word} (h : ∀ row ∈ opcodeTable, row.covers w = false) :
    decode w = .error (.noPattern w) := by
  cases hd : decode w with
  | ok i =>
    have hcovers : i.row.covers w = true := (row_covers_iff_decode i w).mpr ⟨i, hd, rfl⟩
    rw [h i.row (row_mem_opcodeTable i)] at hcovers
    cases hcovers
  | error e => rw [eq_noPattern_of_decode hd]

/-- Settles O4: two rows that cover a word are both the row of the one instruction it decodes to. -/
theorem decodeFollowsTheOpcodeTable : Obligations.DecodeFollowsTheOpcodeTable := by
  refine ⟨rfl, ?_, ?_, ?_, fun w => decode_of_not_covered⟩
  · intro w r q hr hq hrw hqw
    obtain ⟨i, hi, rfl⟩ := (covers_iff_decode hr w).mp hrw
    obtain ⟨j, hj, rfl⟩ := (covers_iff_decode hq w).mp hqw
    rw [Except.ok.inj (hi.symm.trans hj)]
  · intro w row hrow hcovers
    obtain ⟨i, hi, rfl⟩ := (covers_iff_decode hrow w).mp hcovers
    exact ⟨i, hi, rfl⟩
  · intro w i hi
    exact ⟨i.row, row_mem_opcodeTable i, rfl, (row_covers_iff_decode i w).mpr ⟨i, hi, rfl⟩⟩

/-- Settles O1: seventeen fixed words, each run through the decoder. -/
theorem specWordsDecode : Obligations.SpecWordsDecode := by
  unfold Obligations.SpecWordsDecode
  decide

end Sys2Proof

namespace Sys2Proof.Machine

/-! ## The fetch (R52) -/

theorem advancePc_eq_ofNat (s : State) :
    s.advancePc = { s with pc := BitVec.ofNat 16 ((s.pc.toNat + 2) % 0x10000) } := by
  have hpc : s.pc + 2 = BitVec.ofNat 16 ((s.pc.toNat + 2) % 0x10000) := by
    apply BitVec.eq_of_toNat_eq
    simp
  rw [State.advancePc, hpc]

/-- Settles O12: the fetch reads two bytes in range, and out of range it ends the cycle. -/
theorem fetchReadsTwoBytesOrHalts : Obligations.FetchReadsTwoBytesOrHalts := by
  constructor
  · intro s hrange
    rw [← advancePc_eq_ofNat]
    exact fetch_of_lt hrange
  · intro s hrange hrunning hstop
    rw [step_running s hrunning]
    exact runCycle_of_outOfRange hstop hrange

end Sys2Proof.Machine
end

section
/-! PROOFS, 40_control_flow.md: the jump, the call and its return, and the skips. A word's decoding follows from its
encoding (`decode_encode`), and what the call stack does from `execCall_of_room` and `execRet_of_append`. -/

namespace Sys2Proof

/-! ## Decoding a word known by its fields (30_encoding.md R57, R59) -/

theorem decode_of_encode_eq {i : Instr} {w : Word} (h : encode i = w) : decode w = .ok i :=
  h ▸ decode_encode i

/-- Classes 5 and 9 have one function, whose selector is 0; every other selector is a decode failure. -/
theorem decode_of_selector_ne_zero {w : Word} (hop : nib1 w = 0x5#4 ∨ nib1 w = 0x9#4) (hf : nib4 w ≠ 0#4) :
    decode w = .error (.noPattern w) := by
  rcases hop with hop | hop <;> simp [decode, hop, hf]

end Sys2Proof

namespace Sys2Proof.Machine

open Sys2Proof.Safety

variable {s : State}

/-! ## The operations on pc, as record updates -/

theorem zextAddr_eq_ofNat (nnn : Addr12) : zextAddr nnn = BitVec.ofNat 16 nnn.toNat :=
  (BitVec.ofNat_toNat 16 nnn).symm

theorem skipIf_eq (c : Bool) (s : State) : s.skipIf c = { s with pc := if c then s.pc + 2 else s.pc } := by
  cases c <;> rfl

theorem skipIf_beq (a b : Byte) (s : State) :
    s.skipIf (a == b) = { s with pc := if a = b then s.pc + 2 else s.pc } := by
  simp [skipIf_eq]

theorem skipIf_bne (a b : Byte) (s : State) :
    s.skipIf (a != b) = { s with pc := if a = b then s.pc else s.pc + 2 } := by
  simp [skipIf_eq]

/-! ## Nested calls and their returns (R67) -/

/-- A run goes on from where its first instruction leaves the state. -/
theorem execSeq_cons {i : Instr} {t : State} (h : exec i s.advancePc = .next t) (is : List Instr) :
    execSeq (i :: is) s = execSeq is t := by
  rw [execSeq, h]

/-- A run of two parts runs the second from where the first ends. -/
theorem execSeq_append {is : List Instr} {t : State} (h : execSeq is s = .next t) (js : List Instr) :
    execSeq (is ++ js) s = execSeq js t := by
  induction is generalizing s with
  | nil => cases h; rfl
  | cons i is ih =>
    cases hexec : exec i s.advancePc with
    | next u =>
      rw [execSeq_cons hexec] at h
      rw [List.cons_append, execSeq_cons hexec, ih h]
    | fault r => simp [execSeq, hexec] at h
    | refused r => simp [execSeq, hexec] at h

/-- The state a call with room leaves: the return address on top of the stack, and pc at the target. -/
def State.called (nnn : Addr12) (s : State) : State :=
  State.jump (zextAddr nnn) { s with stack := s.stack ++ [s.pc] }

/-- A call, a body that leaves everything but pc as it found it, and a return leave the state as the call's fetch
advance left it. -/
theorem execSeq_call_body_ret {nnn : Addr12} {body : List Instr} {w : Word}
    (hroom : s.stack.length < s.params.stackDepth)
    (hbody : execSeq body (s.advancePc.called nnn) = .next ((s.advancePc.called nnn).jump w)) :
    execSeq (.call nnn :: (body ++ [.ret])) s = .next s.advancePc := by
  have hcall : exec (.call nnn) s.advancePc = .next (s.advancePc.called nnn) :=
    execCall_of_room nnn (Nat.ne_of_lt hroom)
  have hret : exec .ret ((s.advancePc.called nnn).jump w).advancePc = .next s.advancePc :=
    execRet_of_append rfl
  rw [execSeq_cons hcall, execSeq_append hbody, execSeq_cons hret, execSeq]

/-- One call to each target, then as many returns. -/
def callsThenReturns (targets : List Addr12) : List Instr :=
  targets.map Instr.call ++ List.replicate targets.length Instr.ret

/-- The outermost call and return enclose the others. -/
theorem callsThenReturns_cons (nnn : Addr12) (targets : List Addr12) :
    callsThenReturns (nnn :: targets) = .call nnn :: (callsThenReturns targets ++ [.ret]) := by
  simp [callsThenReturns, List.replicate_succ']

/-- Calls that fit and their returns change pc alone: it is back after the first call, if there is one. -/
theorem execSeq_callsThenReturns {targets : List Addr12}
    (hroom : s.stack.length + targets.length ≤ s.params.stackDepth) :
    execSeq (callsThenReturns targets) s = .next (if targets = [] then s else s.advancePc) := by
  induction targets generalizing s with
  | nil => rfl
  | cons nnn targets ih =>
    rw [List.length_cons] at hroom
    have hlength : (s.advancePc.called nnn).stack.length = s.stack.length + 1 := by simp [State.called]
    have hinner : (s.advancePc.called nnn).stack.length + targets.length ≤ s.params.stackDepth := by omega
    have hbody : ∃ w, execSeq (callsThenReturns targets) (s.advancePc.called nnn) =
        .next ((s.advancePc.called nnn).jump w) := by
      rw [ih hinner]
      split
      · exact ⟨_, rfl⟩
      · exact ⟨_, rfl⟩
    obtain ⟨w, hbody⟩ := hbody
    rw [callsThenReturns_cons]
    exact execSeq_call_body_ret (by omega) hbody

/-- Settles O31: the call's two cases, and N calls with N returns by nesting, the outermost pair around the rest. -/
theorem callPushesOrOverflows : Obligations.CallPushesOrOverflows := by
  refine ⟨fun w hop => decode_of_encode_eq (encA_of_class (congrArg BitVec.toNat hop)),
    fun nnn s => ⟨fun hroom => ?_, execCall_of_full nnn⟩, fun targets s hne hroom => ?_⟩
  · rw [← zextAddr_eq_ofNat]
    exact execCall_of_room nnn (Nat.ne_of_lt hroom)
  · exact (execSeq_callsThenReturns hroom).trans (by rw [if_neg hne])

/-- Settles O29: the pop's two cases. -/
theorem retPopsOrUnderflows : Obligations.RetPopsOrUnderflows :=
  ⟨decode_encode .ret, fun _ _ _ => execRet_of_append, fun _ => execRet_of_nil⟩

/-- Settles O30: the target is the address field, extended by zeros. -/
theorem jpJumpsToItsAddress : Obligations.JpJumpsToItsAddress := by
  refine ⟨fun w hop => decode_of_encode_eq (encA_of_class (congrArg BitVec.toNat hop)), fun nnn s => ?_⟩
  rw [← zextAddr_eq_ofNat]
  rfl

/-- Settles O32: SE skips on equality, SNE on its negation. -/
theorem immediateSkipsCompare : Obligations.ImmediateSkipsCompare :=
  ⟨fun _ hop => decode_of_encode_eq (encXNN_of_fields (congrArg BitVec.toNat hop) rfl),
    fun _ hop => decode_of_encode_eq (encXNN_of_fields (congrArg BitVec.toNat hop) rfl),
    fun x nn s => ⟨congrArg Host.Outcome.next (skipIf_beq (s.readV x) nn s),
      congrArg Host.Outcome.next (skipIf_bne (s.readV x) nn s)⟩⟩

/-- Settles O33: as O32, with a second register, and a selector that must be 0. -/
theorem registerSkipsCompare : Obligations.RegisterSkipsCompare :=
  ⟨fun _ hop hf => decode_of_encode_eq (encXY_of_fields (congrArg BitVec.toNat hop) (congrArg BitVec.toNat hf)),
    fun _ hop hf => decode_of_encode_eq (encXY_of_fields (congrArg BitVec.toNat hop) (congrArg BitVec.toNat hf)),
    fun _ => decode_of_selector_ne_zero,
    fun x y s => ⟨congrArg Host.Outcome.next (skipIf_beq (s.readV x) (s.readV y) s),
      congrArg Host.Outcome.next (skipIf_bne (s.readV x) (s.readV y) s)⟩⟩

end Sys2Proof.Machine
end

section
/-! PROOFS, 41_alu.md: the register and arithmetic instructions. Each is one `writeV` or one `writeWithFlag`, so its
frame is `keeps_writeV` or `keeps_writeWithFlag`, and what is left is the value written. -/

namespace Sys2Proof

/-- In class 8 the last nibble selects the function (30_encoding.md R58). -/
theorem decode_of_class8 {w : Word} {f : Nibble} {i : Instr} (hop : nib1 w = 0x8#4) (hf : nib4 w = f)
    (hi : encode i = encXY 0x8 (fieldX w) (fieldY w) f) : decode w = .ok i :=
  decode_of_encode_eq (hi.trans (encXY_of_fields (congrArg BitVec.toNat hop) (congrArg BitVec.toNat hf)))

end Sys2Proof

namespace Sys2Proof.Machine

open Sys2Proof.Safety

/-! ## The values written -/

/-- Byte subtraction wraps mod 256 (R72). -/
theorem toNat_sub_byte (a b : Byte) : (a - b).toNat = (a.toNat + 256 - b.toNat) % 256 := by
  have hb := b.isLt
  rw [BitVec.toNat_sub]
  congr 1
  omega

/-! ## The flags (10_state.md R17), as the rules state them -/

theorem flagByte_decide (p : Prop) [Decidable p] : flagByte (decide p) = if p then 1 else 0 := by
  simp [flagByte]

theorem carryFlag_eq_ite (a b : Byte) : carryFlag a b = if 255 < a.toNat + b.toNat then 1 else 0 := by
  rw [carryFlag_eq, flagByte_decide]

theorem noBorrowFlag_eq_ite (minuend subtrahend : Byte) :
    noBorrowFlag minuend subtrahend = if subtrahend.toNat < minuend.toNat then 1 else 0 :=
  flagByte_decide (subtrahend < minuend)

theorem toNat_shiftRightFlag (a : Byte) : (shiftRightFlag a).toNat = a.toNat % 2 := by
  simp [shiftRightFlag, Nat.and_one_is_mod]

/-- Shifted right by 7, a byte is its top bit. -/
theorem toNat_shiftLeftFlag (a : Byte) : (shiftLeftFlag a).toNat = a.toNat / 128 := by
  have ha := a.isLt
  have htop : a.toNat / 128 % 2 = a.toNat / 128 := Nat.mod_eq_of_lt (by omega)
  simp [shiftLeftFlag, Nat.shiftRight_eq_div_pow, Nat.and_one_is_mod, htop]

/-! ## A result with a flag (10_state.md R18) -/

theorem readV_writeWithFlag_result {x : Reg} (hx : x ≠ VF) (b flag : Byte) (s : State) :
    (s.writeWithFlag x b flag).readV x = b := by
  rw [readV_writeWithFlag, if_neg hx, if_pos rfl]

theorem readV_writeWithFlag_flag (x : Reg) (b flag : Byte) (s : State) :
    (s.writeWithFlag x b flag).readV VF = flag := by
  rw [readV_writeWithFlag, if_pos rfl]

/-! ## Without a flag -/

/-- Settles O34: the write is the immediate's. -/
theorem ldByteWritesTheImmediate : Obligations.LdByteWritesTheImmediate :=
  ⟨fun _ hop => decode_of_encode_eq (encXNN_of_fields (congrArg BitVec.toNat hop) rfl),
    fun x nn s => ⟨_, rfl, readV_writeV_same x nn s, keeps_writeV x nn s⟩⟩

/-- What 7XNN leaves in its register (R74). -/
theorem toNat_readV_addByte (x : Reg) (nn : Byte) (s : State) :
    ((s.writeV x (s.readV x + nn)).readV x).toNat = ((s.readV x).toNat + nn.toNat) % 256 := by
  rw [readV_writeV_same, BitVec.toNat_add]

/-- Settles O35: byte addition is mod 256, and after 6XNN the register it adds to holds the immediate. -/
theorem addByteWrapsWithoutAFlag : Obligations.AddByteWrapsWithoutAFlag := by
  refine ⟨fun _ hop => decode_of_encode_eq (encXNN_of_fields (congrArg BitVec.toNat hop) rfl),
    fun x nn s => ⟨_, rfl, toNat_readV_addByte x nn s, keeps_writeV x _ s⟩,
    fun x nn v s => ⟨_, _, rfl, rfl, ?_⟩⟩
  rw [toNat_readV_addByte, readV_writeV_same]

/-- Settles O36: the bits of OR, AND and XOR are the library's. -/
theorem copyAndLogicWriteOneRegister : Obligations.CopyAndLogicWriteOneRegister := by
  refine ⟨fun _ hop hf => decode_of_class8 hop hf rfl, fun _ hop hf => decode_of_class8 hop hf rfl,
    fun _ hop hf => decode_of_class8 hop hf rfl, fun _ hop hf => decode_of_class8 hop hf rfl, fun x y s =>
    ⟨⟨_, rfl, readV_writeV_same x _ s, keeps_writeV x _ s⟩, ⟨_, rfl, keeps_writeV x _ s, fun k _ => ?or⟩,
      ⟨_, rfl, keeps_writeV x _ s, fun k _ => ?and⟩, ⟨_, rfl, keeps_writeV x _ s, fun k _ => ?xor⟩⟩⟩
  case or => rw [readV_writeV_same, BitVec.getLsbD_or]
  case and => rw [readV_writeV_same, BitVec.getLsbD_and]
  case xor => rw [readV_writeV_same, BitVec.getLsbD_xor, Bool.bne_eq_xor]

/-- Settles O40: the held random byte and the immediate meet bit by bit. -/
theorem rndMasksTheRandomInput : Obligations.RndMasksTheRandomInput := by
  refine ⟨fun _ hop => decode_of_encode_eq (encXNN_of_fields (congrArg BitVec.toNat hop) rfl),
    fun x nn s => ⟨_, rfl, fun k _ => ?_, keeps_writeV x _ s⟩⟩
  rw [readV_writeV_same, BitVec.getLsbD_and]

/-! ## With a flag, written last -/

/-- Settles O37: the sum is mod 256, and the carry says whether it passed 255. -/
theorem addRegWritesSumAndCarry : Obligations.AddRegWritesSumAndCarry := by
  refine ⟨fun _ hop hf => decode_of_class8 hop hf rfl,
    fun x y s => ⟨_, rfl, fun hx => ?sum, ?carry, keeps_writeWithFlag x _ _ s⟩⟩
  case sum => rw [readV_writeWithFlag_result hx, BitVec.toNat_add]
  case carry => rw [readV_writeWithFlag_flag, carryFlag_eq_ite]

/-- What 8XY5 and 8XY7 share: they differ in which register is the minuend (R80, R82). -/
theorem writeWithFlag_sub (x : Reg) (a b : Byte) (s : State) :
    (x ≠ VF → ((s.writeWithFlag x (a - b) (noBorrowFlag a b)).readV x).toNat = (a.toNat + 256 - b.toNat) % 256) ∧
    (s.writeWithFlag x (a - b) (noBorrowFlag a b)).readV VF = (if b.toNat < a.toNat then 1 else 0) ∧
    Footprint.Keeps { regs := [x, VF] } s (s.writeWithFlag x (a - b) (noBorrowFlag a b)) := by
  refine ⟨fun hx => ?difference, ?noBorrow, keeps_writeWithFlag x _ _ s⟩
  case difference => rw [readV_writeWithFlag_result hx, toNat_sub_byte]
  case noBorrow => rw [readV_writeWithFlag_flag, noBorrowFlag_eq_ite]

/-- Settles O38: one subtraction, with the minuend in Vx and in Vy. -/
theorem subtractionsWriteDifferenceAndNoBorrow : Obligations.SubtractionsWriteDifferenceAndNoBorrow :=
  ⟨fun _ hop hf => decode_of_class8 hop hf rfl, fun _ hop hf => decode_of_class8 hop hf rfl, fun x y s =>
    ⟨⟨_, rfl, writeWithFlag_sub x (s.readV x) (s.readV y) s⟩,
      ⟨_, rfl, writeWithFlag_sub x (s.readV y) (s.readV x) s⟩⟩⟩

/-- Settles O39: a shift by one halves or doubles, and the bit shifted out is the remainder by 2 or the quotient
by 128. -/
theorem shiftsMoveOneBitIntoTheFlag : Obligations.ShiftsMoveOneBitIntoTheFlag := by
  refine ⟨fun _ hop hf => decode_of_class8 hop hf rfl, fun _ hop hf => decode_of_class8 hop hf rfl, fun x y s =>
    ⟨⟨_, rfl, fun hx => ?half, ?low, keeps_writeWithFlag x _ _ s⟩,
      ⟨_, rfl, fun hx => ?double, ?high, keeps_writeWithFlag x _ _ s⟩⟩⟩
  case half => rw [readV_writeWithFlag_result hx, BitVec.toNat_ushiftRight, Nat.shiftRight_eq_div_pow, pow_one]
  case low => rw [readV_writeWithFlag_flag, toNat_shiftRightFlag]
  case double => rw [readV_writeWithFlag_result hx, BitVec.toNat_shiftLeft, Nat.shiftLeft_eq, pow_one]
  case high => rw [readV_writeWithFlag_flag, toNat_shiftLeftFlag]

end Sys2Proof.Machine
end

section
/-! PROOFS, 42_index_memory.md: the writers of I, and the memory instructions. The frames are the footprints of
`execChangesOnlyItsFootprint`; what a store leaves in memory is `byteAt_storeBytes`, and what a load leaves in the
registers `readV_loadBytes`. -/

namespace Sys2Proof

/-- In class F the second byte selects the function (30_encoding.md R58). -/
theorem decode_of_classF {w : Word} {nn : Byte} {i : Instr} (hop : nib1 w = 0xF#4) (hnn : fieldNN w = nn)
    (hi : encode i = encXNN 0xF (fieldX w) nn) : decode w = .ok i :=
  decode_of_encode_eq (hi.trans (encXNN_of_fields (congrArg BitVec.toNat hop) (congrArg BitVec.toNat hnn)))

end Sys2Proof

namespace Sys2Proof.Machine

open Sys2Proof.Safety

variable {s : State} {k : Nat}

/-! ## The writers of I (R85, R86, R88) -/

theorem toNat_glyphAddr (p : Params) (b : Byte) :
    (glyphAddr p b).toNat = (p.fontBase + b.toNat * 5) % 0x10000 :=
  BitVec.toNat_ofNat _ 16

/-- The sum of I and a byte wraps mod 0x10000. -/
theorem toNat_add_setWidth_byte (i : Word) (b : Byte) :
    (i + b.setWidth 16).toNat = (i.toNat + b.toNat) % 0x10000 := by
  rw [BitVec.toNat_add, BitVec.toNat_setWidth_of_le (by decide)]

/-- Settles O41: each value written to I is a 16-bit one, and I is the whole of the footprint. -/
theorem indexWritersWriteI : Obligations.IndexWritersWriteI :=
  ⟨fun _ hop => decode_of_encode_eq (encA_of_class (congrArg BitVec.toNat hop)),
    fun _ hop hnn => decode_of_classF hop hnn rfl, fun _ hop hnn => decode_of_classF hop hnn rfl,
    fun nnn s => ⟨_, rfl, toNat_zextAddr nnn, execChangesOnlyItsFootprint (.ldI nnn) s _ rfl⟩,
    fun x s => ⟨_, rfl, toNat_glyphAddr s.params (s.readV x), execChangesOnlyItsFootprint (.ldFont x) s _ rfl⟩,
    fun x s => ⟨_, rfl, toNat_add_setWidth_byte s.i (s.readV x), execChangesOnlyItsFootprint (.addI x) s _ rfl⟩⟩

/-! ## Stores from I up (R87, R89) -/

/-- The `k`-th byte stored from I up lands at I + k, if that write is accepted. -/
theorem byteAt_ea_storeBytes {bytes : List Byte} {b : Byte} (hb : bytes[k]? = some b) :
    (s.storeBytes (s.ea 0) bytes).byteAt (s.ea k) =
      if writeReject s.params (s.ea k) = none then some b else s.byteAt (s.ea k) := by
  obtain ⟨hk, -⟩ := List.getElem?_eq_some_iff.mp hb
  have hplace : s.ea k - s.ea 0 = k := by simp [State.ea]
  have hrange : s.ea 0 ≤ s.ea k ∧ s.ea k < s.ea 0 + bytes.length := by simp [State.ea, hk]
  simp [byteAt_storeBytes, hplace, hrange, hb]

theorem storeBytes_diag (bytes : List Byte) (a : Nat) (s : State) :
    (s.storeBytes a bytes).diag = s.diag ++ storeEvents s.params a bytes.length := by
  obtain ⟨m, hm⟩ := storeBytes_frame bytes a s
  rw [hm]

/-- A number's byte stands at the number's place. -/
theorem getElem?_map_ofNat {ns : List Nat} (hk : k < ns.length) :
    (ns.map (BitVec.ofNat 8))[k]? = some (BitVec.ofNat 8 (ns.getD k 0)) := by
  simp [hk]

/-- Settles O43: in either mode the bytes stored are the digits' bytes, place by place. -/
theorem ldBcdStoresThreeDigits : Obligations.LdBcdStoresThreeDigits := by
  refine ⟨fun _ hop hnn => decode_of_classF hop hnn rfl, fun x s => ⟨_, rfl,
    fun k hk => byteAt_ea_storeBytes ?stored, ?events, execChangesOnlyItsFootprint (.ldBcd x) s _ rfl⟩⟩
  case stored =>
    cases s.params.bcdMode with
    | decimal => exact getElem?_map_ofNat (ns := [_, _, _]) hk
    | referenceDup => exact getElem?_map_ofNat (ns := [_, _, _]) hk
  case events => rw [storeBytes_diag, length_bcdDigits]

/-- Settles O44: the byte at place `k` of those stored is that of register `k`. -/
theorem storeRegsStoresEachRegister : Obligations.StoreRegsStoresEachRegister := by
  refine ⟨fun _ hop hnn => decode_of_classF hop hnn rfl, fun x s => ⟨_, rfl,
    fun k hk => byteAt_ea_storeBytes ?stored, ?events, execChangesOnlyItsFootprint (.storeRegs x) s _ rfl⟩⟩
  case stored => rw [List.getElem?_map, getElem?_regsUpTo x k hk, Option.map_some]
  case events => rw [storeBytes_diag, List.length_map, length_regsUpTo]

/-! ## Loads from I up (R90) -/

theorem loadBytes_diag (rs : List Reg) (a : Nat) (s : State) :
    (s.loadBytes a rs).diag = s.diag ++ readEvents s.params a rs.length := by
  obtain ⟨v, hv⟩ := loadBytes_frame rs a s
  rw [hv]

/-- Settles O45: register `k` is the one at place `k` of those loaded, and appears there alone. -/
theorem loadRegsLoadsEachRegister : Obligations.LoadRegsLoadsEachRegister := by
  refine ⟨fun _ hop hnn => decode_of_classF hop hnn rfl, fun x s => ⟨_, rfl, fun k hk => ?loaded, fun k hk => ?kept,
    ?events, execChangesOnlyItsFootprint (.loadRegs x) s _ rfl⟩⟩
  case loaded => exact readV_loadBytes (regsUpTo x) (s.ea 0) k s (nodup_regsUpTo x) (getElem?_regsUpTo x k hk)
  case kept => exact readV_loadBytes_of_not_mem (regsUpTo x) (s.ea 0) s (mt (mem_regsUpTo x k).mp hk)
  case events => rw [loadBytes_diag, length_regsUpTo]

end Sys2Proof.Machine
end

section
/-! PROOFS, 43_display.md: clear and the sprite blit. A blit is a run of drawings that share no pixel: each sprite row
draws its columns one after another, and the sprite its rows. `Draws` says what a drawing leaves, and `Draws.trans` that
two such drawings are one. -/

namespace Sys2Proof.Machine

open Sys2Proof.Safety

variable {p : Params} {fb fb' : Framebuffer} {x y : Nat}

/-! ## Clear (R93) -/

/-- Settles O47: the blank surface holds nothing but 0, and the framebuffer is the whole of the footprint. -/
theorem clsClearsTheSurface : Obligations.ClsClearsTheSurface :=
  ⟨decode_encode .cls, fun s => ⟨_, rfl, List.length_replicate, fun _ => List.eq_of_mem_replicate,
    execChangesOnlyItsFootprint .cls s _ rfl⟩⟩

/-! ## The pixels of the surface (10_state.md R24) -/

theorem pixelIndex_mod (hx : x < p.displayW) : pixelIndex p x y % p.displayW = x := by
  rw [pixelIndex, Nat.mul_add_mod', Nat.mod_eq_of_lt hx]

/-- Two pixels of the surface never share a place. -/
theorem pixelIndex_inj {a b : Nat} (hx : x < p.displayW) (ha : a < p.displayW) :
    pixelIndex p x y = pixelIndex p a b ↔ x = a ∧ y = b := by
  refine ⟨fun h => ?_, fun ⟨hxa, hyb⟩ => by rw [hxa, hyb]⟩
  have hxa : x = a := by rw [← pixelIndex_mod (y := y) hx, h, pixelIndex_mod ha]
  have hrow : y * p.displayW = b * p.displayW := Nat.add_right_cancel (hxa ▸ h : _ + a = _ + a)
  exact ⟨hxa, Nat.eq_of_mul_eq_mul_right (Nat.zero_lt_of_lt ha) hrow⟩

theorem pixelIndex_lt (hx : x < p.displayW) (hy : y < p.displayH) :
    pixelIndex p x y < p.displayW * p.displayH :=
  calc y * p.displayW + x < (y + 1) * p.displayW := by rw [Nat.succ_mul]; omega
    _ ≤ p.displayH * p.displayW := Nat.mul_le_mul_right _ hy
    _ = p.displayW * p.displayH := Nat.mul_comm _ _

/-- Every place in the framebuffer is the place of a pixel of the surface. -/
theorem exists_pixelIndex {k : Nat} (hk : k < p.displayW * p.displayH) :
    ∃ px py, px < p.displayW ∧ py < p.displayH ∧ pixelIndex p px py = k :=
  ⟨k % p.displayW, k / p.displayW, Nat.mod_lt _ (Nat.pos_of_mul_pos_right (Nat.zero_lt_of_lt hk)),
    Nat.div_lt_of_lt_mul hk, Nat.div_add_mod' k _⟩

/-- A surface is its pixels. -/
theorem fb_ext (hfb : fb.length = p.displayW * p.displayH) (hfb' : fb'.length = p.displayW * p.displayH)
    (h : ∀ px py, px < p.displayW → py < p.displayH → pixelAt p fb px py = pixelAt p fb' px py) : fb = fb' := by
  refine List.ext_getElem (hfb.trans hfb'.symm) fun k hk hk' => ?_
  obtain ⟨px, py, hx, hy, rfl⟩ := exists_pixelIndex (hfb ▸ hk)
  simpa [pixelAt, hk, hk'] using h px py hx hy

/-- A flip changes its own pixel alone. -/
theorem pixelAt_flipPixel {a b : Nat} (hfb : fb.length = p.displayW * p.displayH) (ha : a < p.displayW)
    (hb : b < p.displayH) (hx : x < p.displayW) :
    pixelAt p (flipPixel p fb a b) x y = (pixelAt p fb x y != decide (x = a ∧ y = b)) := by
  have hin : pixelIndex p a b < fb.length := hfb ▸ pixelIndex_lt ha hb
  by_cases h : x = a ∧ y = b
  · obtain ⟨rfl, rfl⟩ := h
    simp [pixelAt, flipPixel, hin]
  · have hne : pixelIndex p a b ≠ pixelIndex p x y := fun e => h ((pixelIndex_inj hx ha).mp e.symm)
    simp [pixelAt, flipPixel, hne, h]

/-! ## Drawing a set of pixels -/

/-- `after` is `before` with the pixels of the surface that `covers` names drawn on it: each is flipped, and one that
was set is a collision. The pairs are those of `blitColumns`. -/
structure Draws (p : Params) (covers : Nat → Nat → Bool) (before after : Framebuffer × Bool) : Prop where
  size : after.1.length = before.1.length
  pixel : ∀ px py, px < p.displayW → py < p.displayH →
    pixelAt p after.1 px py = (pixelAt p before.1 px py != covers px py)
  collided : after.2 = true ↔ before.2 = true ∨ ∃ px py, px < p.displayW ∧ py < p.displayH ∧
    covers px py = true ∧ pixelAt p before.1 px py = true

section
variable {covers covers₁ covers₂ : Nat → Nat → Bool} {before mid after : Framebuffer × Bool}

/-- What covers no pixel of the surface draws nothing. -/
theorem Draws.of_uncovered (h : ∀ px py, px < p.displayW → py < p.displayH → covers px py = false) :
    Draws p covers before before where
  size := rfl
  pixel px py hx hy := by rw [h px py hx hy, Bool.bne_false]
  collided := by
    refine ⟨.inl, fun hor => hor.elim id ?_⟩
    rintro ⟨px, py, hx, hy, hcovers, -⟩
    rw [h px py hx hy] at hcovers
    cases hcovers

/-- Two drawings that share no pixel are one drawing: the second meets its pixels as they were before the first. -/
theorem Draws.trans (h₁ : Draws p covers₁ before mid) (h₂ : Draws p covers₂ mid after)
    (hdisjoint : ∀ px py, covers₁ px py = true → covers₂ px py = false)
    (hunion : ∀ px py, covers px py = (covers₁ px py || covers₂ px py)) : Draws p covers before after where
  size := h₂.size.trans h₁.size
  pixel px py hx hy := by
    rw [h₂.pixel px py hx hy, h₁.pixel px py hx hy, hunion]
    have hd := hdisjoint px py
    cases h : covers₁ px py with
    | true => rw [hd h, Bool.bne_false, Bool.true_or]
    | false => rw [Bool.bne_false, Bool.false_or]
  collided := by
    have hmid : ∀ px py, px < p.displayW → py < p.displayH → covers₂ px py = true →
        pixelAt p mid.1 px py = pixelAt p before.1 px py := fun px py hx hy h => by
      have hc : covers₁ px py = false := Bool.eq_false_iff.mpr fun hc => by simp [hdisjoint px py hc] at h
      rw [h₁.pixel px py hx hy, hc, Bool.bne_false]
    rw [h₂.collided, h₁.collided, or_assoc]
    refine or_congr_right ⟨?_, ?_⟩
    · rintro (⟨px, py, hx, hy, hc, hset⟩ | ⟨px, py, hx, hy, hc, hset⟩)
      · exact ⟨px, py, hx, hy, by rw [hunion, hc, Bool.true_or], hset⟩
      · exact ⟨px, py, hx, hy, by rw [hunion, hc, Bool.or_true], hmid px py hx hy hc ▸ hset⟩
    · rintro ⟨px, py, hx, hy, hc, hset⟩
      rw [hunion, Bool.or_eq_true] at hc
      rcases hc with hc | hc
      · exact .inl ⟨px, py, hx, hy, hc, hset⟩
      · exact .inr ⟨px, py, hx, hy, hc, (hmid px py hx hy hc).trans hset⟩

/-- A flip that keeps account of the collision draws its pixel. -/
theorem Draws.flipPixel {a b : Nat} (hfb : before.1.length = p.displayW * p.displayH) (ha : a < p.displayW)
    (hb : b < p.displayH) (hcovers : ∀ px py, covers px py = decide (px = a ∧ py = b)) :
    Draws p covers before (flipPixel p before.1 a b, before.2 || pixelAt p before.1 a b) where
  size := length_flipPixel p before.1 a b
  pixel px py hx _ := by rw [pixelAt_flipPixel hfb ha hb hx, hcovers]
  collided := by
    rw [Bool.or_eq_true]
    refine or_congr_right ⟨fun hset => ⟨a, b, ha, hb, by simp [hcovers], hset⟩, ?_⟩
    rintro ⟨px, py, -, -, hc, hset⟩
    obtain ⟨rfl, rfl⟩ : px = a ∧ py = b := by simpa [hcovers] using hc
    exact hset

end

/-! ## The columns of a row -/

/-- Whether columns `c` to `c + k - 1` of a sprite row at (x0, y) have a set bit of the byte on pixel (px, py). -/
def columnsCover (x0 y : Nat) (b : Byte) (c k px py : Nat) : Bool :=
  decide (py = y) && decide (x0 + c ≤ px) && decide (px < x0 + c + k) && spriteBit b (px - x0)

theorem columnsCover_iff {x0 y c k px py : Nat} {b : Byte} : columnsCover x0 y b c k px py = true ↔
    py = y ∧ x0 + c ≤ px ∧ px < x0 + c + k ∧ spriteBit b (px - x0) = true := by
  simp [columnsCover, and_assoc]

/-- A column of the row is its first or one of the rest. -/
theorem columnsCover_succ (x0 y : Nat) (b : Byte) (c k px py : Nat) : columnsCover x0 y b c (k + 1) px py =
    (columnsCover x0 y b c 1 px py || columnsCover x0 y b (c + 1) k px py) := by
  rw [Bool.eq_iff_iff, Bool.or_eq_true, columnsCover_iff, columnsCover_iff, columnsCover_iff]
  grind

theorem columnsCover_disjoint (x0 y : Nat) (b : Byte) (c k px py : Nat)
    (h : columnsCover x0 y b c 1 px py = true) : columnsCover x0 y b (c + 1) k px py = false := by
  rw [columnsCover_iff] at h
  rw [Bool.eq_false_iff, Ne, columnsCover_iff]
  omega

/-- One column covers its pixel if its bit is set. -/
theorem columnsCover_one (x0 y : Nat) (b : Byte) (c px py : Nat) :
    columnsCover x0 y b c 1 px py = (spriteBit b c && decide (px = x0 + c ∧ py = y)) := by
  rw [Bool.eq_iff_iff, Bool.and_eq_true, columnsCover_iff, decide_eq_true_iff]
  grind

/-- Drawing consecutive columns up to the right edge draws what they cover. -/
theorem blitColumns_draws {x0 y : Nat} (b : Byte) (c k : Nat) {acc : Framebuffer × Bool}
    (hfb : acc.1.length = p.displayW * p.displayH) (hy : y < p.displayH) :
    Draws p (columnsCover x0 y b c k) acc (blitColumns p x0 y b (List.range' c k) acc) := by
  induction k generalizing c acc with
  | zero => exact .of_uncovered fun px py _ _ => by rw [Bool.eq_false_iff, Ne, columnsCover_iff]; omega
  | succ k ih =>
    rw [List.range'_succ, blitColumns]
    split
    next hclip => exact .of_uncovered fun px py hx _ => by rw [Bool.eq_false_iff, Ne, columnsCover_iff]; omega
    next hin =>
      have hdisjoint := columnsCover_disjoint x0 y b c k
      have hunion := columnsCover_succ x0 y b c k
      split
      next hbit =>
        have hfirst := Draws.flipPixel (covers := columnsCover x0 y b c 1) hfb (Nat.not_le.mp hin) hy fun px py => by
          rw [columnsCover_one, hbit, Bool.true_and]
        exact hfirst.trans (ih (c + 1) (hfirst.size.trans hfb)) hdisjoint hunion
      next hbit =>
        have hfirst : Draws p (columnsCover x0 y b c 1) acc acc := .of_uncovered fun px py _ _ => by
          rw [columnsCover_one, Bool.eq_false_iff.mpr hbit, Bool.false_and]
        exact hfirst.trans (ih (c + 1) hfb) hdisjoint hunion

/-! ## The rows of a sprite -/

/-- Whether rows `r` to `r + k - 1` of the sprite at `I`, its origin at (x0, y0), have a set bit on pixel (px, py). -/
def rowsCover (s : State) (x0 y0 r k px py : Nat) : Bool :=
  decide (y0 + r ≤ py) && decide (py < y0 + r + k) && decide (x0 ≤ px) && decide (px < x0 + 8) &&
    (s.byteAt (s.ea (py - y0))).any (spriteBit · (px - x0))

theorem rowsCover_iff {s : State} {x0 y0 r k px py : Nat} : rowsCover s x0 y0 r k px py = true ↔
    y0 + r ≤ py ∧ py < y0 + r + k ∧ x0 ≤ px ∧ px < x0 + 8 ∧
      (s.byteAt (s.ea (py - y0))).any (spriteBit · (px - x0)) = true := by
  simp [rowsCover, and_assoc]

/-- A row of the sprite is its first or one of the rest. -/
theorem rowsCover_succ (s : State) (x0 y0 r k px py : Nat) : rowsCover s x0 y0 r (k + 1) px py =
    (rowsCover s x0 y0 r 1 px py || rowsCover s x0 y0 (r + 1) k px py) := by
  rw [Bool.eq_iff_iff, Bool.or_eq_true, rowsCover_iff, rowsCover_iff, rowsCover_iff]
  grind

theorem rowsCover_disjoint (s : State) (x0 y0 r k px py : Nat) (h : rowsCover s x0 y0 r 1 px py = true) :
    rowsCover s x0 y0 (r + 1) k px py = false := by
  rw [rowsCover_iff] at h
  rw [Bool.eq_false_iff, Ne, rowsCover_iff]
  omega

/-- One row covers what its eight columns cover. -/
theorem rowsCover_one {s : State} {r : Nat} {b : Byte} (hb : s.byteAt (s.ea r) = some b) (x0 y0 : Nat) :
    rowsCover s x0 y0 r 1 = columnsCover x0 (y0 + r) b 0 8 := by
  funext px py
  rw [Bool.eq_iff_iff, rowsCover_iff, columnsCover_iff]
  have hrow : py = y0 + r → py - y0 = r := by omega
  grind

/-- A row whose byte does not exist covers nothing. -/
theorem rowsCover_one_of_none {s : State} {r : Nat} (hb : s.byteAt (s.ea r) = none) (x0 y0 px py : Nat) :
    rowsCover s x0 y0 r 1 px py = false := by
  rw [Bool.eq_false_iff, Ne, rowsCover_iff]
  have hrow : py = y0 + r → py - y0 = r := by omega
  grind

/-- The whole sprite, its origin wrapped, covers what the statement says. -/
theorem rowsCover_eq_spriteCovers (s : State) (vx vy : Byte) (n : Nibble) (px py : Nat) :
    rowsCover s (originX s.params vx) (originY s.params vy) 0 n.toNat px py = spriteCovers s vx vy n px py := by
  unfold rowsCover spriteCovers
  cases s.byteAt (s.ea (py - originY s.params vy)) <;> grind [spriteBit]

/-- A row above the bottom edge is drawn, and its event logged. -/
theorem blitRow_draws {s : State} {x0 y0 r : Nat} (collided : Bool)
    (hfb : s.fb.length = s.params.displayW * s.params.displayH) (hy : y0 + r < s.params.displayH) :
    ∃ out, blitRow x0 y0 r s collided =
        ({ s with diag := s.diag ++ (readReject s.params (s.ea r)).toList, fb := out.1 }, out.2) ∧
      Draws s.params (rowsCover s x0 y0 r 1) (s.fb, collided) out := by
  rw [blitRow]
  cases hb : s.byteAt (s.ea r) with
  | none => exact ⟨_, rfl, .of_uncovered fun px py _ _ => rowsCover_one_of_none hb x0 y0 px py⟩
  | some b =>
    refine ⟨_, rfl, ?_⟩
    rw [rowsCover_one hb, List.range_eq_range']
    exact blitColumns_draws b 0 8 hfb hy

/-- Drawing consecutive rows down to the bottom edge draws what they cover, and logs the events of the rows read. -/
theorem blitRows_draws {s : State} (x0 y0 r k : Nat) (collided : Bool)
    (hfb : s.fb.length = s.params.displayW * s.params.displayH) :
    ∃ out, blitRows x0 y0 (List.range' r k) (s, collided) =
        ({ s with
            diag := s.diag ++ readEvents s.params (s.ea r) (min k (s.params.displayH - (y0 + r)))
            fb := out.1 }, out.2) ∧
      Draws s.params (rowsCover s x0 y0 r k) (s.fb, collided) out := by
  induction k generalizing r s collided with
  | zero =>
    refine ⟨(s.fb, collided), by simp [blitRows, readEvents], .of_uncovered fun px py _ _ => ?_⟩
    rw [Bool.eq_false_iff, Ne, rowsCover_iff]
    omega
  | succ k ih =>
    rw [List.range'_succ, blitRows_cons]
    split
    next hclip =>
      refine ⟨(s.fb, collided), by simp [readEvents, hclip], .of_uncovered fun px py _ hy => ?_⟩
      rw [Bool.eq_false_iff, Ne, rowsCover_iff]
      omega
    next hin =>
      obtain ⟨first, hfirst, hdraws⟩ := blitRow_draws (x0 := x0) collided hfb (Nat.not_le.mp hin)
      obtain ⟨out, hout, hrest⟩ := ih
        (s := { s with diag := s.diag ++ (readReject s.params (s.ea r)).toList, fb := first.1 })
        (r + 1) first.2 (hdraws.size.trans hfb)
      have hvisible : min (k + 1) (s.params.displayH - (y0 + r)) =
          min k (s.params.displayH - (y0 + (r + 1))) + 1 := by omega
      refine ⟨out, ?_, hdraws.trans hrest (rowsCover_disjoint s x0 y0 r k) (rowsCover_succ s x0 y0 r k)⟩
      rw [hfirst, hout, hvisible, readEvents_succ, ← List.append_assoc]
      rfl

/-! ## The instruction (R94) -/

theorem flagByte_eq_one_iff (c : Bool) : flagByte c = 1 ↔ c = true := by
  cases c <;> simp [flagByte]

/-- What DXYN leaves: the sprite drawn, the events of its visible rows, and the collision in VF. -/
theorem execDrw_draws {s : State} (x y : Reg) (n : Nibble)
    (hfb : s.fb.length = s.params.displayW * s.params.displayH) :
    ∃ out, execDrw x y n s = .next (State.writeV VF (flagByte out.2) { s with
        diag := s.diag ++ readEvents s.params (s.ea 0) (visibleRows s.params (s.readV y) n)
        fb := out.1 }) ∧
      Draws s.params (spriteCovers s (s.readV x) (s.readV y) n) (s.fb, false) out := by
  obtain ⟨out, hblit, hdraws⟩ := blitRows_draws (originX s.params (s.readV x)) (originY s.params (s.readV y)) 0
    n.toNat false hfb
  refine ⟨out, ?_, ?_⟩
  · rw [← List.range_eq_range'] at hblit
    have hdrawn : blit (s.readV x) (s.readV y) n s = _ := hblit
    rw [execDrw, hdrawn]
    rfl
  · have hcovers : rowsCover s _ _ 0 n.toNat = spriteCovers s (s.readV x) (s.readV y) n :=
      funext fun px => funext fun py => rowsCover_eq_spriteCovers s (s.readV x) (s.readV y) n px py
    exact hcovers ▸ hdraws

/-- Settles O48: the blit draws what the sprite covers, starting without a collision. -/
theorem drwXorsTheClippedSprite : Obligations.DrwXorsTheClippedSprite := by
  refine ⟨fun w hop => decode_of_encode_eq (encXY_of_fields (congrArg BitVec.toNat hop) rfl),
    fun x y n s _ _ hfb => ?_⟩
  obtain ⟨out, hexec, hdraws⟩ := execDrw_draws x y n hfb
  refine ⟨_, hexec, hdraws.size, hdraws.pixel, ?flag, ?collision, rfl,
    execChangesOnlyItsFootprint (.drw x y n) s _ hexec⟩
  case flag =>
    rw [readV_writeV_same]
    exact flagByte_zero_or_one out.2
  case collision =>
    rw [readV_writeV_same, flagByte_eq_one_iff, hdraws.collided]
    exact or_iff_right Bool.false_ne_true

/-! ## The same sprite twice (R92) -/

/-- A sprite is the same where the parameters, I and memory are. -/
theorem spriteCovers_congr {s t : State} (hp : t.params = s.params) (hi : t.i = s.i)
    (hmem : ∀ a, t.byteAt a = s.byteAt a) (vx vy : Byte) (n : Nibble) :
    spriteCovers t vx vy n = spriteCovers s vx vy n := by
  funext px py
  simp only [spriteCovers, State.ea, hp, hi, hmem]

/-- Settles O49: the second draw flips the same pixels back, and a pixel it meets set is one the first draw set. -/
theorem drawingTwiceRestoresTheSurface : Obligations.DrawingTwiceRestoresTheSurface := by
  intro x y n s t hw hh hfb hexec hx hy
  obtain ⟨t', hexec', hsize, hpixel, -, -, -, hkeeps⟩ := drwXorsTheClippedSprite.2 x y n s hw hh hfb
  cases hexec'.symm.trans hexec
  have hp := hkeeps.params
  have hcovers := spriteCovers_congr hp (hkeeps.i rfl) (fun a => hkeeps.mem a List.not_mem_nil)
    (s.readV x) (s.readV y) n
  obtain ⟨u, hexec₂, hsize₂, hpixel₂, -, hcollided₂, -, -⟩ :=
    drwXorsTheClippedSprite.2 x y n t (hp ▸ hw) (hp ▸ hh) (by rw [hsize, hp, hfb])
  rw [hp, hx, hy, hcovers] at hpixel₂ hcollided₂
  refine ⟨u, hexec₂, ?restored, ?flag⟩
  case restored =>
    refine fb_ext (hsize₂.trans (hsize.trans hfb)) hfb fun px py hpx hpy => ?_
    rw [hpixel₂ px py hpx hpy, hpixel px py hpx hpy, Bool.bne_assoc, bne_self_eq_false, Bool.bne_false]
  case flag =>
    rw [hcollided₂]
    refine exists₂_congr fun px py => and_congr_right fun hpx => and_congr_right fun hpy =>
      and_congr_left fun hset => ?_
    rw [hpixel px py hpx hpy, bne_iff_ne] at hset
    rw [Bool.eq_not.mpr hset, Bool.not_eq_false']

end Sys2Proof.Machine
end

section
/-! PROOFS, 44_timers.md: the decay of a timer's value, the timer instructions, and the sound timer, which no
instruction reads. A timer's value as a number is `toNat_timerValue`, a delay read `delayRead_eq`. -/

namespace Sys2Proof.Machine

open Sys2Proof.Safety

variable {s t : State}

/-! ## A timer's value (R96, R99) -/

section
variable {hz now : Nat} (tm : Timer)

theorem decayed_mono (hz started : Nat) {later : Nat} (h : now ≤ later) :
    decayed hz started now ≤ decayed hz started later :=
  Nat.div_le_div_right (Nat.mul_le_mul_left 60 (Nat.sub_le_sub_right h started))

theorem timerValue_antitone (hz : Nat) {later : Nat} (h : now ≤ later) :
    (timerValue hz tm later).toNat ≤ (timerValue hz tm now).toNat := by
  rw [toNat_timerValue, toNat_timerValue]
  exact Nat.sub_le_sub_left (decayed_mono hz tm.startedAt h) _

/-- Until the first decrement is due the value is the counter. -/
theorem timerValue_of_lt (h : 60 * (now - tm.startedAt) < hz) : timerValue hz tm now = tm.counter := by
  have hnone : decayed hz tm.startedAt now = 0 := Nat.div_eq_of_lt h
  apply BitVec.eq_of_toNat_eq
  rw [toNat_timerValue, hnone, Nat.sub_zero]

/-- Once as many decrements are due as the counter holds the value is 0. -/
theorem timerValue_of_le (hhz : 1 ≤ hz) (h : tm.counter.toNat * hz ≤ 60 * (now - tm.startedAt)) :
    timerValue hz tm now = 0 := by
  have hall : tm.counter.toNat ≤ decayed hz tm.startedAt now := (Nat.le_div_iff_mul_le hhz).mpr h
  apply BitVec.eq_of_toNat_eq
  rw [toNat_timerValue, Nat.sub_eq_zero_of_le hall]
  rfl

end

/-- An inert timer's value is 0 at every clock (R95). -/
theorem timerValue_inert (hz started now : Nat) : timerValue hz ⟨0, started⟩ now = 0 := if_pos rfl

/-- The delay timer a delay read leaves has the value it had: it changes only where that is 0, to the inert one. -/
theorem delayRead_delayRead_value (s : State) : s.delayRead.2.delayRead.1 = s.delayRead.1 := by
  rw [delayRead_eq s, delayRead_eq]
  dsimp only
  by_cases hzero : timerValue s.params.timeHz s.delay s.input.now = 0
  · rw [if_pos hzero, hzero, timerValue_inert]
  · rw [if_neg hzero]

/-- Settles O50: the decrements due grow with the clock; none is due at first, and in the end all are. -/
theorem timerValueDecays : Obligations.TimerValueDecays :=
  ⟨fun hz tm _ hhz => ⟨fun _ => timerValue_antitone tm hz, timerValue_of_lt tm, timerValue_of_le tm hhz⟩,
    delayRead_delayRead_value⟩

/-! ## The timer instructions (R101 to R103) -/

/-- FX07 writes the timer's value, and the delay read leaves the timer inert where that is 0. -/
theorem execLdFromDelay_eq (x : Reg) (s : State) :
    execLdFromDelay x s = .next (State.writeV x (timerValue s.params.timeHz s.delay s.input.now) { s with
      delay := if timerValue s.params.timeHz s.delay s.input.now = 0 then { s.delay with counter := 0 }
        else s.delay }) := by
  rw [execLdFromDelay, delayRead_eq]
  by_cases hzero : timerValue s.params.timeHz s.delay s.input.now = 0
  · rw [if_pos hzero, if_pos hzero]
  · rw [if_neg hzero, if_neg hzero]

/-- Settles O51: the register holds the timer's value, and register and delay timer are the footprint. -/
theorem ldFromDelayReadsTheDecayedValue : Obligations.LdFromDelayReadsTheDecayedValue := by
  refine ⟨fun _ hop hnn => decode_of_classF hop hnn rfl, fun x s => ⟨_, execLdFromDelay_eq x s, ?value, ?timer,
    execChangesOnlyItsFootprint (.ldFromDelay x) s _ (execLdFromDelay_eq x s)⟩⟩
  case value =>
    rw [readV_writeV_same]
    exact toNat_timerValue s.params.timeHz s.delay s.input.now
  case timer => rw [readV_writeV_same, State.writeV_delay]

/-- Settles O52: each writes a timer that starts at the held clock. -/
theorem timerWritesRestartTheTimer : Obligations.TimerWritesRestartTheTimer :=
  ⟨fun _ hop hnn => decode_of_classF hop hnn rfl, fun _ hop hnn => decode_of_classF hop hnn rfl,
    fun _ _ => ⟨rfl, rfl⟩⟩

/-! ## The sound timer has no reader (R100): every operation commutes with replacing it -/

/-- The state with another sound timer. -/
def State.withSound (other : Timer) (s : State) : State := { s with sound := other }

theorem storeBytes_withSound (bytes : List Byte) (a : Nat) (other : Timer) (s : State) :
    (s.withSound other).storeBytes a bytes = (s.storeBytes a bytes).withSound other := by
  induction bytes generalizing a s with
  | nil => rfl
  | cons b rest ih =>
    have hwrite : (s.withSound other).memWrite a b = (s.memWrite a b).withSound other := by
      rw [memWrite_eq, memWrite_eq]; rfl
    rw [State.storeBytes, State.storeBytes, hwrite, ih]

theorem loadBytes_withSound (rs : List Reg) (a : Nat) (other : Timer) (s : State) :
    (s.withSound other).loadBytes a rs = (s.loadBytes a rs).withSound other := by
  induction rs generalizing a s with
  | nil => rfl
  | cons r rest ih =>
    rw [loadBytes_cons, loadBytes_cons]
    exact ih (a + 1) (State.writeV r _ { s with diag := s.diag ++ (readReject s.params a).toList })

theorem blitRow_withSound (x0 y0 r : Nat) (other : Timer) (s : State) (collided : Bool) :
    blitRow x0 y0 r (s.withSound other) collided =
      ((blitRow x0 y0 r s collided).1.withSound other, (blitRow x0 y0 r s collided).2) := by
  have hbyte : (s.withSound other).byteAt ((s.withSound other).ea r) = s.byteAt (s.ea r) := rfl
  rw [blitRow, blitRow, hbyte]
  cases s.byteAt (s.ea r) <;> rfl

theorem blitRows_withSound (x0 y0 : Nat) (rows : List Nat) (other : Timer) (s : State) (collided : Bool) :
    blitRows x0 y0 rows (s.withSound other, collided) =
      ((blitRows x0 y0 rows (s, collided)).1.withSound other, (blitRows x0 y0 rows (s, collided)).2) := by
  induction rows generalizing s collided with
  | nil => rfl
  | cons r rest ih =>
    rw [blitRows_cons, blitRows_cons, blitRow_withSound, ih]
    by_cases hclip : s.params.displayH ≤ y0 + r
    · rw [if_pos hclip]; exact if_pos hclip
    · rw [if_neg hclip]; exact if_neg hclip

theorem blit_withSound (vx vy : Byte) (n : Nibble) (other : Timer) (s : State) :
    blit vx vy n (s.withSound other) = ((blit vx vy n s).1.withSound other, (blit vx vy n s).2) :=
  blitRows_withSound _ _ _ other s false

theorem skipIf_withSound (c : Bool) (other : Timer) (s : State) :
    (s.withSound other).skipIf c = (s.skipIf c).withSound other := by
  cases c <;> rfl

theorem execRet_withSound (other : Timer) (h : execRet s = .next t) :
    execRet (s.withSound other) = .next (t.withSound other) := by
  rcases execRet_cases s with ⟨hempty, hret⟩ | ⟨rest, w, hstack, hret⟩
  · cases hret.symm.trans h
    exact execRet_of_nil hempty
  · cases hret.symm.trans h
    exact execRet_of_append hstack

theorem execCall_withSound {nnn : Addr12} (other : Timer) (h : execCall nnn s = .next t) :
    execCall nnn (s.withSound other) = .next (t.withSound other) := by
  rcases execCall_cases nnn s with ⟨hfull, hcall⟩ | ⟨hroom, hcall⟩
  · cases hcall.symm.trans h
    exact execCall_of_full nnn hfull
  · cases hcall.symm.trans h
    exact execCall_of_room nnn hroom

theorem execDrw_withSound {x y : Reg} {n : Nibble} (other : Timer) (h : execDrw x y n s = .next t) :
    execDrw x y n (s.withSound other) = .next (t.withSound other) := by
  have hdrawn : blit ((s.withSound other).readV x) ((s.withSound other).readV y) n (s.withSound other) = _ :=
    blit_withSound (s.readV x) (s.readV y) n other s
  cases h
  rw [execDrw, hdrawn]
  rfl

theorem execLdFromDelay_withSound {x : Reg} (other : Timer) (h : execLdFromDelay x s = .next t) :
    execLdFromDelay x (s.withSound other) = .next (t.withSound other) := by
  cases (execLdFromDelay_eq x s).symm.trans h
  exact execLdFromDelay_eq x (s.withSound other)

/-- Every instruction commutes with replacing the sound timer; FX18 alone leaves one of its own. -/
theorem exec_withSound {i : Instr} (other : Timer) (h : exec i s = .next t) :
    ∃ left, exec i (s.withSound other) = .next (t.withSound left) := by
  cases i with
  | ret => exact ⟨other, execRet_withSound other h⟩
  | call nnn => exact ⟨other, execCall_withSound other h⟩
  | drw x y n => exact ⟨other, execDrw_withSound other h⟩
  | ldFromDelay x => exact ⟨other, execLdFromDelay_withSound other h⟩
  | ldSound x => cases h; exact ⟨timerWrite (s.readV x) s.input.now, rfl⟩
  | ldBcd _ | storeRegs _ =>
    cases h
    exact ⟨other, congrArg Host.Outcome.next (storeBytes_withSound _ (s.ea 0) other s)⟩
  | loadRegs x =>
    cases h
    exact ⟨other, congrArg Host.Outcome.next (loadBytes_withSound (regsUpTo x) (s.ea 0) other s)⟩
  | seByte _ _ | sneByte _ _ | seReg _ _ | sneReg _ _ =>
    cases h
    exact ⟨other, congrArg Host.Outcome.next (skipIf_withSound _ other s)⟩
  | cls | jp _ | ldByte _ _ | addByte _ _ | ldReg _ _ | orReg _ _ | andReg _ _ | xorReg _ _ | addReg _ _ | subReg _ _
  | shr _ _ | subnReg _ _ | shl _ _ | ldI _ | rnd _ _ | skp _ | sknp _ | ldKey _ | ldDelay _ | addI _ | ldFont _ =>
    cases h
    exact ⟨other, rfl⟩

theorem soundActive_iff (s : State) (now : Nat) :
    s.soundActive now = true ↔ 0 < (timerValue s.params.timeHz s.sound now).toNat := by
  rw [State.soundActive, decide_eq_true_iff, Nat.pos_iff_ne_zero, Ne, Ne, ← BitVec.toNat_inj]
  rfl

/-- Settles O28: every instruction commutes with replacing the sound timer, and the output level is its value. -/
theorem soundTimerIsOnlyAnOutput : Obligations.SoundTimerIsOnlyAnOutput :=
  ⟨fun _ _ _ other h => exec_withSound other h, soundActive_iff⟩

end Sys2Proof.Machine
end

section
/-! PROOFS, 45_input_stubs.md: the key opcodes are recognised, and their meaning is the state they are given. -/

namespace Sys2Proof

/-- In class E the second byte selects the function (30_encoding.md R58). -/
theorem decode_of_classE {w : Word} {nn : Byte} {i : Instr} (hop : nib1 w = 0xE#4) (hnn : fieldNN w = nn)
    (hi : encode i = encXNN 0xE (fieldX w) nn) : decode w = .ok i :=
  decode_of_encode_eq (hi.trans (encXNN_of_fields (congrArg BitVec.toNat hop) (congrArg BitVec.toNat hnn)))

end Sys2Proof

namespace Sys2Proof.Machine

variable (x : Reg) (s : State)

/-! ## The stubs (R104 to R106) -/

/-- EX9E does not skip (R104). -/
theorem exec_skp : exec (.skp x) s = .next s := rfl

/-- EXA1 does not skip, although no key is ever pressed (R105). -/
theorem exec_sknp : exec (.sknp x) s = .next s := rfl

/-- FX0A neither waits nor writes its register (R106). -/
theorem exec_ldKey : exec (.ldKey x) s = .next s := rfl

/-- Settles O53: the second byte tells the three opcodes apart, and each leaves the state it is given. -/
theorem keyOpcodesAreNoOps : Obligations.KeyOpcodesAreNoOps :=
  ⟨fun _ hop hnn => decode_of_classE hop hnn rfl, fun _ hop hnn => decode_of_classE hop hnn rfl,
    fun _ hop hnn => decode_of_classF hop hnn rfl, fun x s => ⟨exec_skp x s, exec_sknp x s, exec_ldKey x s⟩⟩

end Sys2Proof.Machine
end

section
/-! PROOFS, 60_exceptions.md: what a step runs, when it halts and for which reason, and what the halted state holds. -/

namespace Sys2Proof

/-! ## The nibbles of a halt record (R109) -/

/-- A nibble of a byte of a word is four bits of the word. -/
theorem extractLsb'_byte (w : Word) (lo : Nat) {k : Nat} (hk : k ≤ 4) :
    (w.extractLsb' lo 8).extractLsb' k 4 = w.extractLsb' (lo + k) 4 := by
  apply BitVec.eq_of_getLsbD_eq
  intro j hj
  have hbyte : k + j < 8 := by omega
  simp [hbyte, Nat.add_assoc]

theorem nibbles_wordOfBytes (b1 b2 : Byte) :
    nib1 (wordOfBytes b1 b2) = b1.extractLsb' 4 4 ∧ nib2 (wordOfBytes b1 b2) = b1.extractLsb' 0 4 ∧
      nib3 (wordOfBytes b1 b2) = b2.extractLsb' 4 4 ∧ nib4 (wordOfBytes b1 b2) = b2.extractLsb' 0 4 := by
  have hhigh : ∀ k, k ≤ 4 → (wordOfBytes b1 b2).extractLsb' (8 + k) 4 = b1.extractLsb' k 4 := fun k hk => by
    rw [← extractLsb'_byte _ 8 hk]
    exact congrArg _ (highByte_wordOfBytes b1 b2)
  have hlow : ∀ k, k ≤ 4 → (wordOfBytes b1 b2).extractLsb' (0 + k) 4 = b2.extractLsb' k 4 := fun k hk => by
    rw [← extractLsb'_byte _ 0 hk]
    exact congrArg _ (fieldNN_wordOfBytes b1 b2)
  exact ⟨hhigh 4 (by decide), hhigh 0 (by decide), hlow 4 (by decide), hlow 0 (by decide)⟩

end Sys2Proof

namespace Sys2Proof.Machine

open Sys2Proof.Safety

variable {s t : State} {i : Instr} {r : HaltReason}

theorem decodeFailureAt_eq (addr : Word) (b1 b2 : Byte) :
    decodeFailureAt addr b1 b2 = .decodeFailure addr b1 b2 (b1.extractLsb' 4 4) (b1.extractLsb' 0 4)
      (b2.extractLsb' 4 4) (b2.extractLsb' 0 4) := by
  obtain ⟨h1, h2, h3, h4⟩ := nibbles_wordOfBytes b1 b2
  rw [decodeFailureAt, h1, h2, h3, h4]

/-! ## The step's outcome, case by case (R107) -/

/-- Settles O9: the cycle of a fetch in range whose word decodes. -/
theorem stepRunsTheDecodedInstruction : Obligations.StepRunsTheDecodedInstruction :=
  fun s _ hrunning hstop hrange hdecode =>
    (step_running s hrunning).trans (runCycle_of_decode_ok hstop hrange hdecode)

/-- Settles O11: the cycle tries the stop request first. -/
theorem stopHaltsBeforeTheFetch : Obligations.StopHaltsBeforeTheFetch :=
  fun s hrunning hstop => (step_running s hrunning).trans (runCycle_of_stop hstop)

/-- Settles O13: the bytes at pc and pc + 1 are those the cycle fetched, and the record's nibbles are theirs. -/
theorem decodeFailureHalts : Obligations.DecodeFailureHalts := by
  intro s b1 b2 e hrunning hstop hrange hb1 hb2 hdecode
  cases (byteAt_of_lt (Nat.lt_of_succ_lt hrange)).symm.trans hb1
  cases (byteAt_of_lt hrange).symm.trans hb2
  rw [step_running s hrunning, ← decodeFailureAt_eq]
  exact runCycle_of_decode_error hstop hrange hdecode

theorem stepWith_halted (h : s.status = .halted r) (inp : StepInput) : stepWith inp s = .fault (.halted r) := by
  simp [stepWith, h]

/-- Settles O14: the status is looked at before the inputs. -/
theorem haltedMachineHasNoStep : Obligations.HaltedMachineHasNoStep :=
  fun s r h => ⟨step_halted s r h, stepWith_halted h⟩

/-! ## Every running machine has a next state (R107, R117) -/

/-- A cycle that halts is a next state, and so is what any instruction leaves. -/
theorem exists_runCycle_next (s : State) : ∃ t, runCycle s = .next t := by
  rcases runCycle_cases s with ⟨-, hrun⟩ | ⟨-, -, hrun⟩ | ⟨_, _, _, -, -, -, -, -, hrun⟩ |
    ⟨_, _, i, -, -, -, -, -, hrun⟩
  · exact ⟨_, hrun⟩
  · exact ⟨_, hrun⟩
  · exact ⟨_, hrun⟩
  · obtain ⟨t, hexec, -⟩ := exec_keeps i s.advancePc
    exact ⟨t, hrun.trans hexec⟩

/-- Settles O15: a running machine's step is a cycle, and a halted one's a fault. -/
theorem runningMachineHasANextState : Obligations.RunningMachineHasANextState := by
  refine fun s => ⟨fun ⟨_, hstep⟩ => running_of_step_next hstep, fun hrunning => ?_⟩
  rw [step_running s hrunning]
  exact exists_runCycle_next _

/-! ## Stack errors: the one way an instruction halts (R112) -/

/-- The stack error an instruction raises, by the instruction and the stack before it (R65, R67). -/
def stackError (s : State) : Instr → Option HaltReason
  | .ret => if s.stack = [] then some (.stackUnderflow s.instrAddr) else none
  | .call _ => if s.stack.length = s.params.stackDepth then some (.stackOverflow s.instrAddr) else none
  | _ => none

/-- The execute phase sees pc advanced, so a stack error records the instruction's own address (R108). -/
@[simp] theorem instrAddr_advancePc (s : State) : s.advancePc.instrAddr = s.pc := BitVec.add_sub_cancel s.pc 2

theorem stackError_advancePc_eq_some_iff :
    stackError s.advancePc i = some r ↔
      (i = .ret ∧ s.stack = [] ∧ r = .stackUnderflow s.pc) ∨
      ((∃ nnn, i = .call nnn) ∧ s.stack.length = s.params.stackDepth ∧ r = .stackOverflow s.pc) := by
  cases i with
  | ret | call _ => simp [stackError, eq_comm]
  | _ => simp [stackError]

/-- An instruction raises its stack error before it writes anything, or leaves the status alone. -/
theorem exec_cases (hexec : exec i s = .next t) :
    (∃ r, stackError s i = some r ∧ t = s.raiseFatal r) ∨ (stackError s i = none ∧ t.status = s.status) := by
  cases i with
  | ret =>
    rcases execRet_cases s with ⟨hempty, hret⟩ | ⟨rest, w, hstack, hret⟩
    · cases hret.symm.trans hexec
      exact .inl ⟨_, if_pos hempty, rfl⟩
    · cases hret.symm.trans hexec
      exact .inr ⟨if_neg (by simp [hstack]), rfl⟩
  | call nnn =>
    rcases execCall_cases nnn s with ⟨hfull, hcall⟩ | ⟨hroom, hcall⟩
    · cases hcall.symm.trans hexec
      exact .inl ⟨_, if_pos hfull, rfl⟩
    · cases hcall.symm.trans hexec
      exact .inr ⟨if_neg hroom, rfl⟩
  | _ => exact .inr ⟨rfl, (execChangesOnlyItsFootprint _ s t hexec).status rfl⟩

/-- A running machine's instruction halts exactly by its stack error. -/
theorem exec_halted_iff (hrunning : s.status = .running) (hexec : exec i s = .next t) :
    t.status = .halted r ↔ stackError s i = some r := by
  rcases exec_cases hexec with ⟨r', herr, rfl⟩ | ⟨herr, hstatus⟩
  · simp [herr]
  · simp [herr, hstatus, hrunning]

/-- Settles O16: the cycle's four outcomes, each with the earlier reasons ruled out. -/
theorem stepHaltsInThePriorityOrder : Obligations.StepHaltsInThePriorityOrder := by
  intro s t r hstep b1 b2 fetched
  have hrunning := running_of_step_next hstep
  rw [step_running s hrunning] at hstep
  rcases runCycle_cases (s.takeInput.sample s.nextInput) with
    ⟨(hstop : s.nextInput.stop = true), hrun⟩ |
    ⟨(hstop : s.nextInput.stop = false), (hrange : s.params.memSize ≤ s.pc.toNat + 1), hrun⟩ |
    ⟨_, _, e, (hstop : s.nextInput.stop = false), (hrange : s.pc.toNat + 1 < s.params.memSize), rfl, rfl,
      (hdecode : decode (wordOfBytes b1 b2) = .error e), hrun⟩ |
    ⟨_, _, i, (hstop : s.nextInput.stop = false), (hrange : s.pc.toNat + 1 < s.params.memSize), rfl, rfl,
      (hdecode : decode (wordOfBytes b1 b2) = .ok i), hrun⟩
  · cases hrun.symm.trans hstep
    simp [fetched, hstop, eq_comm]
  · cases hrun.symm.trans hstep
    simp [fetched, hstop, hrange, Nat.not_lt.mpr hrange, eq_comm]
  · cases hrun.symm.trans hstep
    simp [fetched, hstop, hrange, Nat.not_le.mpr hrange, hdecode, b1, b2, eq_comm]
  · rw [exec_halted_iff (s := (s.takeInput.sample s.nextInput).advancePc) hrunning (hrun.symm.trans hstep),
      stackError_advancePc_eq_some_iff]
    simp [fetched, hstop, hrange, Nat.not_le.mpr hrange, hdecode]

/-! ## What a halted state holds (R110, R113) -/

/-- A raised error's record is the one the halted state holds. -/
theorem eq_raiseFatal_of_halted {u : State} {r' : HaltReason} (ht : u.raiseFatal r' = t)
    (hhalt : t.status = .halted r) : t = u.raiseFatal r := by
  subst ht
  cases hhalt
  rfl

/-- A cycle that halts writes the status and no more, before or after the fetch advance. -/
theorem eq_raiseFatal_of_runCycle (hrunning : s.status = .running) (hcycle : runCycle s = .next t)
    (hhalt : t.status = .halted r) : t = s.raiseFatal r ∨ t = s.advancePc.raiseFatal r := by
  rcases runCycle_cases s with ⟨-, hrun⟩ | ⟨-, -, hrun⟩ | ⟨_, _, _, -, -, -, -, -, hrun⟩ |
    ⟨_, _, i, -, -, -, -, -, hrun⟩
  · exact .inl (eq_raiseFatal_of_halted (Host.Outcome.next.inj (hrun.symm.trans hcycle)) hhalt)
  · exact .inl (eq_raiseFatal_of_halted (Host.Outcome.next.inj (hrun.symm.trans hcycle)) hhalt)
  · exact .inr (eq_raiseFatal_of_halted (Host.Outcome.next.inj (hrun.symm.trans hcycle)) hhalt)
  · rcases exec_cases (hrun.symm.trans hcycle) with ⟨_, -, ht⟩ | ⟨-, hstatus⟩
    · exact .inr (eq_raiseFatal_of_halted ht.symm hhalt)
    · cases (hstatus.trans hrunning).symm.trans hhalt

/-- Settles O17: the cycle starts from the state with the inputs taken. -/
theorem haltedStateHoldsNoPartialEffects : Obligations.HaltedStateHoldsNoPartialEffects := by
  intro s t r hstep hhalt
  have hrunning := running_of_step_next hstep
  rw [step_running s hrunning] at hstep
  rcases eq_raiseFatal_of_runCycle (s := s.takeInput.sample s.nextInput) hrunning hstep hhalt with rfl | rfl
  · exact ⟨.inl rfl, rfl⟩
  · exact ⟨.inr rfl, rfl⟩

end Sys2Proof.Machine
end

section
/-! PROOFS, 70_reset_and_hazards.md: which constructions are refused and for which reason, and what a construction
leaves. Loaded memory is the program over the reset contents: the font, and 0 elsewhere. -/

namespace Sys2Proof.Machine

open Sys2Proof.Safety

variable {p : Params} {program : List Byte} {s : State}

/-! ## The checks of construction (R7, R124) -/

/-- R7's constraints, written out. -/
theorem params_wf_iff : p.wf = true ↔ p.fontBase + 80 ≤ p.memSize ∧ p.memSize ≤ 0x10000 ∧ p.startPc < p.memSize ∧
    1 ≤ p.displayW ∧ 1 ≤ p.displayH ∧ 1 ≤ p.stackDepth ∧ 1 ≤ p.timeHz := by
  simp [Params.wf, and_assoc]

theorem fits_iff {len : Nat} : p.fits len = true ↔ p.startPc + len ≤ p.memSize := by
  simp [Params.fits]

theorem overlapsFont_iff {len : Nat} : p.overlapsFont len = true ↔
    0 < len ∧ p.startPc < p.fontBase + 80 ∧ p.fontBase < p.startPc + len := by
  simp [Params.overlapsFont, and_assoc]

theorem overlapsFont_eq_false_iff {len : Nat} : p.overlapsFont len = false ↔
    ¬ (0 < len ∧ p.startPc < p.fontBase + 80 ∧ p.fontBase < p.startPc + len) := by
  rw [← overlapsFont_iff, Bool.not_eq_true]

theorem construct_of_not_wf (hwf : p.wf = false) : construct p program = .error .badParameters := by
  simp [construct, hwf]

theorem construct_of_not_fits (hwf : p.wf = true) (hfits : p.fits program.length = false) :
    construct p program = .error .loadOverflow := by
  simp [construct, hwf, hfits]

theorem construct_of_overlapsFont (hwf : p.wf = true) (hfits : p.fits program.length = true)
    (hfont : p.overlapsFont program.length = true) : construct p program = .error .loadOverlapsFont := by
  simp [construct, hwf, hfits, hfont]

/-- A construction yields a state only where its three checks pass, and then the initial one. -/
theorem construct_cases (h : construct p program = .ok s) :
    p.wf = true ∧ p.fits program.length = true ∧ p.overlapsFont program.length = false ∧
      s = State.initial p (Memory.load p [] p.startPc program) program.length := by
  cases hwf : p.wf with
  | false => cases (construct_of_not_wf hwf).symm.trans h
  | true =>
    cases hfits : p.fits program.length with
    | false => cases (construct_of_not_fits hwf hfits).symm.trans h
    | true =>
      cases hfont : p.overlapsFont program.length with
      | true => cases (construct_of_overlapsFont hwf hfits hfont).symm.trans h
      | false =>
        cases (construct_eq_initial hwf hfits hfont).symm.trans h
        exact ⟨rfl, rfl, rfl, rfl⟩

/-- Settles O5: each check that fails, with the earlier ones passed, gives its own failure. -/
theorem constructionRefusesInOrder : Obligations.ConstructionRefusesInOrder := by
  intro p program
  refine ⟨params_wf_iff, construct_of_not_wf, fun hwf hover => ?_, fun hwf hfits hlen hstart hend => ?_⟩
  · have hfits : p.fits program.length = false := by
      rw [Bool.eq_false_iff, Ne, fits_iff]
      omega
    exact construct_of_not_fits hwf hfits
  · exact construct_of_overlapsFont hwf (fits_iff.mpr hfits) (overlapsFont_iff.mpr ⟨hlen, hstart, hend⟩)

/-! ## Memory after construction (R37) -/

theorem background_font {k : Nat} (hk : k < 80) : background p (p.fontBase + k) = glyphByte p k := by
  simp [background, inFont_add hk]

theorem background_of_not_font {a : Nat} (ha : ¬ (p.fontBase ≤ a ∧ a < p.fontBase + 80)) : background p a = 0 := by
  simp [background, inFont_iff, ha]

theorem some_glyphByte {k : Nat} (hk : k < 80) : some (glyphByte p k) = p.fontGlyphs[k]? := by
  simp [glyphByte, hk]

/-- Where the program is not, loaded memory shows the reset contents. -/
theorem read_loaded_of_not_program {a : Nat} (ha : ¬ (p.startPc ≤ a ∧ a < p.startPc + program.length)) :
    Memory.read p (Memory.load p [] p.startPc program) a = background p a := by
  rw [Memory.read_load, if_neg ha, Memory.read]

theorem read_loaded_program {k : Nat} (hk : k < program.length) :
    some (Memory.read p (Memory.load p [] p.startPc program) (p.startPc + k)) = program[k]? := by
  simp [Memory.read_load, hk]

/-- A program that does not meet the font leaves every font byte. -/
theorem read_loaded_font (hfont : p.overlapsFont program.length = false) {k : Nat} (hk : k < 80) :
    Memory.read p (Memory.load p [] p.startPc program) (p.fontBase + k) = glyphByte p k := by
  have hclear := overlapsFont_eq_false_iff.mp hfont
  rw [read_loaded_of_not_program (by omega), background_font hk]

/-! ## The state after construction (R125) -/

/-- Settles O6: the checks pass, every component is the initial state's, and memory is read address by address. -/
theorem constructionLeavesTheResetState : Obligations.ConstructionLeavesTheResetState := by
  intro p program hwf hfits hclear
  have hfont : p.overlapsFont program.length = false := overlapsFont_eq_false_iff.mpr hclear
  obtain ⟨hfontEnd, hmem, hstart, -⟩ := params_wf_iff.mp hwf
  refine ⟨_, construct_eq_initial hwf (fits_iff.mpr hfits) hfont, rfl, fun r => ?registers, rfl, ?pc, rfl, rfl, rfl,
    List.length_replicate, fun _ => List.eq_of_mem_replicate, rfl, rfl, fun k hk => ?font, fun k hk => ?program,
    fun a ha hnotFont hnotProgram => ?zero⟩
  case registers => simp [State.readV, State.initial]
  case pc => exact Nat.mod_eq_of_lt (by omega)
  case font =>
    exact (byteAt_of_lt (show _ < p.memSize by omega)).trans
      ((congrArg some (read_loaded_font hfont hk)).trans (some_glyphByte hk))
  case program =>
    exact (byteAt_of_lt (show _ < p.memSize by omega)).trans (read_loaded_program hk)
  case zero =>
    exact (byteAt_of_lt ha).trans
      (congrArg some ((read_loaded_of_not_program hnotProgram).trans (background_of_not_font hnotFont)))

/-! ## The invariant (R38) -/

/-- The initial state over a loaded program meets the invariant where the three checks pass. -/
theorem inv_initial (hwf : p.wf = true) (hfits : p.fits program.length = true)
    (hfont : p.overlapsFont program.length = false) :
    Inv (State.initial p (Memory.load p [] p.startPc program) program.length) where
  params := hwf
  memWf := Memory.wf_load p program (Memory.wf_nil p) p.startPc
  memInBounds := Memory.inBounds_load p program (Memory.inBounds_nil p) (fits_iff.mp hfits)
  stackFits := Nat.zero_le _
  fbSize := List.length_replicate
  fontIntact _ k hk := by
    obtain ⟨hfontEnd, -⟩ := params_wf_iff.mp hwf
    exact (byteAt_of_lt (show p.fontBase + k < p.memSize by omega)).trans (congrArg some (read_loaded_font hfont hk))

/-- Settles O7: only the initial state over the loaded program is ever constructed. -/
theorem constructionMeetsTheInvariant : Obligations.ConstructionMeetsTheInvariant := by
  intro p program s h
  obtain ⟨hwf, hfits, hfont, rfl⟩ := construct_cases h
  exact inv_initial hwf hfits hfont

/-- Settles O19: the reset state is a construction (O8). -/
theorem resetMeetsTheInvariant : Obligations.ResetMeetsTheInvariant :=
  constructionMeetsTheInvariant _ _ _ resetIsTheDefaultConstruction

end Sys2Proof.Machine
end
